-- ==== Sys2Proof/Word.lean ====
section
/-! DEFINITION. The two word types of LS-8 CORE: an 8-bit byte (registers, memory cells, flags, instruction bytes) and
the 9-bit program counter (spec 00_scope.md R3 and section 5; 10_state.md R10, R13). -/

namespace Sys2Proof

/-- A byte: an unsigned number 0 to 255, bit 0 the least significant (00_scope.md section 6). -/
abbrev Byte := BitVec 8

/-- A value of the program counter (10_state.md R13; the width is the spec's decision D1, log 3). -/
abbrev PcWord := BitVec 9

end Sys2Proof
end

