-- ==== Sys2Proof/Syntax.lean ====
section
/-! DEFINITION. The 15 instructions of LS-8 CORE (30_encoding.md R54), one constructor per row of opcode_table.json, in
the table's order. A register operand is the WHOLE operand byte (30_encoding.md R53): 8 to 255 is a form of the
instruction too, one that raises OutOfBounds when the register is accessed. -/

namespace Sys2Proof

/-- An instruction with its operand bytes. The trailing bytes an instruction does not use are no part of it
(30_encoding.md R53: "An ignored byte may have any value and is not checked in any way"). -/
inductive Instr where
  /-- HLT, format Z (42_system_load_output.md R100). -/
  | hlt
  /-- RET, format Z (44_control_transfer.md R122). -/
  | ret
  /-- PUSH r, format R (43_stack.md R111). -/
  | push (r : Byte)
  /-- POP r, format R (43_stack.md R112). -/
  | pop (r : Byte)
  /-- PRN r, format R (42_system_load_output.md R102). -/
  | prn (r : Byte)
  /-- CALL r, format R (44_control_transfer.md R121). -/
  | call (r : Byte)
  /-- JMP r, format R (44_control_transfer.md R123). -/
  | jmp (r : Byte)
  /-- JEQ r, format R (44_control_transfer.md R124). -/
  | jeq (r : Byte)
  /-- JNE r, format R (44_control_transfer.md R125). -/
  | jne (r : Byte)
  /-- LDI r,v, format RI: register index and immediate (42_system_load_output.md R101). -/
  | ldi (r v : Byte)
  /-- ADD a,b, format RR (41_alu.md R91). -/
  | add (a b : Byte)
  /-- SUB a,b, format RR (41_alu.md R92). -/
  | sub (a b : Byte)
  /-- MUL a,b, format RR (41_alu.md R93). -/
  | mul (a b : Byte)
  /-- DIV a,b, format RR (41_alu.md R94). -/
  | div (a b : Byte)
  /-- CMP a,b, format RR (41_alu.md R95). -/
  | cmp (a b : Byte)
deriving DecidableEq, Repr

end Sys2Proof
end

