-- ==== Sys2Proof/Decode.lean ====
section
/-! DEFINITION. The instruction decoder and the encoder (30_encoding.md R50 to R59, 40_execution_loop.md R72, R73). The
decoder is total on any three bytes and is given all three, because the fetch always reads three (R71); it selects by
an exact match of the whole opcode byte (R55). -/

namespace Sys2Proof

/-- Bits 7:6 of the opcode byte: "operand_count = opcode >> 6" (30_encoding.md R51, 40_execution_loop.md R72). -/
def operandCount (ir : Byte) : Nat := (ir.extractLsb' 6 2).toNat

/-- Bit 5 of the opcode byte: ALU class (R51, R72). -/
def isAlu (ir : Byte) : Bool := ir.getLsbD 5

/-- Bit 4 of the opcode byte: the handler itself writes pc (R51, R72). -/
def setsPc (ir : Byte) : Bool := ir.getLsbD 4

/-- Bits 3:0 of the opcode byte: which instruction within the class (R51). -/
def selector (ir : Byte) : Nat := (ir.extractLsb' 0 4).toNat

/-- Why bytes are no instruction. -/
inductive DecodeError where
  /-- The opcode byte is none of the 15 (30_encoding.md R56); the machine raises UnsupportedOperation(opcode). -/
  | unsupportedOperation (opcode : Byte)
deriving DecidableEq, Repr

/-- The instruction that an opcode byte and the two bytes after it stand for (30_encoding.md R54; the case list of
40_execution_loop.md R75). Bytes the instruction does not use are ignored (R53). -/
def decode (ir opa opb : Byte) : Except DecodeError Instr :=
  match ir with
  | 0x01#8 => .ok .hlt
  | 0x11#8 => .ok .ret
  | 0x45#8 => .ok (.push opa)
  | 0x46#8 => .ok (.pop opa)
  | 0x47#8 => .ok (.prn opa)
  | 0x50#8 => .ok (.call opa)
  | 0x54#8 => .ok (.jmp opa)
  | 0x55#8 => .ok (.jeq opa)
  | 0x56#8 => .ok (.jne opa)
  | 0x82#8 => .ok (.ldi opa opb)
  | 0xA0#8 => .ok (.add opa opb)
  | 0xA1#8 => .ok (.sub opa opb)
  | 0xA2#8 => .ok (.mul opa opb)
  | 0xA3#8 => .ok (.div opa opb)
  | 0xA7#8 => .ok (.cmp opa opb)
  | other => .error (.unsupportedOperation other)

/-- The opcode byte of an instruction, written as the "bits" column of 30_encoding.md R54 gives it. -/
def Instr.opcode : Instr → Byte
  | .hlt => 0b00000001#8
  | .ret => 0b00010001#8
  | .push _ => 0b01000101#8
  | .pop _ => 0b01000110#8
  | .prn _ => 0b01000111#8
  | .call _ => 0b01010000#8
  | .jmp _ => 0b01010100#8
  | .jeq _ => 0b01010101#8
  | .jne _ => 0b01010110#8
  | .ldi _ _ => 0b10000010#8
  | .add _ _ => 0b10100000#8
  | .sub _ _ => 0b10100001#8
  | .mul _ _ => 0b10100010#8
  | .div _ _ => 0b10100011#8
  | .cmp _ _ => 0b10100111#8

/-- The operand bytes, in ascending address order (30_encoding.md R50, R52). -/
def Instr.operands : Instr → List Byte
  | .hlt => []
  | .ret => []
  | .push r => [r]
  | .pop r => [r]
  | .prn r => [r]
  | .call r => [r]
  | .jmp r => [r]
  | .jeq r => [r]
  | .jne r => [r]
  | .ldi r v => [r, v]
  | .add a b => [a, b]
  | .sub a b => [a, b]
  | .mul a b => [a, b]
  | .div a b => [a, b]
  | .cmp a b => [a, b]

/-- The bytes of an instruction: "one opcode byte followed by zero, one, or two operand bytes" (30_encoding.md R50). -/
def encode (i : Instr) : List Byte := i.opcode :: i.operands

/-- Byte k of a table word: the word's bits 8k+7 to 8k, where every bit from nbits up is 0. -/
def tableByte (nbits w k : Nat) : Byte := BitVec.ofNat 8 ((w % 2 ^ nbits) / 2 ^ (8 * k))

/-- What the decoder reads from a word numbered as opcode_table.json numbers it (byte 0 = bits 7:0 = the opcode byte). -/
def decodeTableWord (nbits w : Nat) : Option Instr :=
  match decode (tableByte nbits w 0) (tableByte nbits w 1) (tableByte nbits w 2) with
  | .ok i => some i
  | .error _ => none

end Sys2Proof
end

