-- ==== Sys2Proof/Machine/Flags.lean ====
section
/-! DEFINITION. The flags register FL (10_state.md R15, R16): E is bit 0, G bit 1, L bit 2, and the one computation that
writes it, CMP's (41_alu.md R95). -/

namespace Sys2Proof.Machine

/-- `fl.E`, the Equal bit: the only flag an instruction reads. -/
def flE (fl : Byte) : Bool := fl.getLsbD 0

/-- `fl.G`, the Greater-than bit. -/
def flG (fl : Byte) : Bool := fl.getLsbD 1

/-- `fl.L`, the Less-than bit. -/
def flL (fl : Byte) : Bool := fl.getLsbD 2

/-- FL recomputed from scratch by an unsigned comparison (R95). -/
def compareFlags (va vb : Byte) : Byte :=
  if va = vb then 0b00000001#8
  else if vb.toNat < va.toNat then 0b00000010#8
  else 0b00000100#8

end Sys2Proof.Machine
end

