-- ==== Sys2Proof/Config.lean ====
section
/-! DEFINITION. The sizes and fixed numbers of 00_scope.md R3 and section 5. The spec leaves none of them to an
implementation ("None of these is left as a free parameter of the model") and leaves no value free, so there is no
opaque constant here. -/

namespace Sys2Proof.Config

/-- MEM_SIZE: memory has 256 cells (R3, 20_memory.md R30). -/
def memSize : Nat := 256

/-- NUM_REGS: the register file has 8 registers (R3, 10_state.md R10). -/
def numRegs : Nat := 8

/-- SP_INIT: the stack pointer after reset (R3, 10_state.md R11). -/
def spInit : Byte := 0xF4#8

/-- PC_INIT: the program counter after reset (10_state.md R13). -/
def pcInit : PcWord := 0#9

/-- LOAD_BASE: the address of an image's first byte (70_reset_and_hazards.md R174). -/
def loadBase : Nat := 0

end Sys2Proof.Config
end

