-- ==== Sys2Proof/Machine/State.lean ====
section
/-! DEFINITION. The state of LS-8 CORE (10_state.md section 1) as plain data, its reset value (R21), and the reasons a
step can end without a next state. -/

namespace Sys2Proof.Machine

/-- The run state (10_state.md R17). -/
inductive RunState where
  /-- The core will execute another instruction (the document's FETCHING and EXECUTING). -/
  | running
  /-- An HLT was executed; terminal. -/
  | halted
  /-- A fault was raised; terminal. -/
  | faulted
deriving DecidableEq, Repr

/-- A fault that the hardware raises, with the one number it reports (10_state.md R22, 60_exceptions.md R141 to R145).
These are architectural: the machine TAKES them, in a next state. -/
inductive FaultRecord where
  /-- The opcode byte is not one of the 15 (60_exceptions.md R141); raised at dispatch. -/
  | unsupportedOperation (opcode : Byte)
  /-- DIV with a zero divisor, at this address (R142); raised by DIV only. -/
  | divisionByZero (address : Nat)
  /-- A memory access above 255 (R143); raised by the fetch. -/
  | outOfBoundsMem (address : Nat)
  /-- A register index above 7 (R144); raised by an instruction that accesses the register. -/
  | outOfBoundsReg (index : Byte)
deriving DecidableEq, Repr

/-- The memory array as the list of its cells that do not hold the byte an unlisted address reads as. The canonical form
(Memory.wf, Machine/Ops.lean): addresses strictly rising, all below 256, no cell holding that byte. -/
abbrev Memory := List Host.Cell

/-- All state of the core (10_state.md section 1). The fetch latches ir, opa, opb are not architectural (R19, log 18). -/
structure State where
  /-- `x[0]` to `x[7]` (R10); `x[7]` is SP (R11). -/
  regs : Vector Byte 8
  /-- The program counter (R13). -/
  pc : PcWord
  /-- The flags register (R15): bit 2 = L, bit 1 = G, bit 0 = E. -/
  fl : Byte
  /-- The 256 memory cells (20_memory.md R30). -/
  mem : Memory
  /-- The run state (R17). -/
  run : RunState
  /-- The fault record (R22). -/
  fault : Option FaultRecord
  /-- The output sequence, oldest first (R18). -/
  out : List Byte
deriving DecidableEq, Repr

/-- Reset (10_state.md R21, 70_reset_and_hazards.md R170). R0 to R6 and FL: the spec's decisions D6 and D7 (logs 6, 7). -/
def State.reset : State where
  regs := #v[0x00#8, 0x00#8, 0x00#8, 0x00#8, 0x00#8, 0x00#8, 0x00#8, Config.spInit]
  pc := Config.pcInit
  fl := 0x00#8
  mem := []
  run := .running
  fault := none
  out := []

/-- Why a step has no next state. The hardware's own faults are NOT here: they are taken (FaultRecord). -/
inductive Fault where
  /-- Raised by step when run is HALTED: "HALTED is terminal — no further fetches" (40_execution_loop.md R77). Safe: the
  model stops where the core has no step (log 1). -/
  | coreHalted
  /-- Raised by step when run is FAULTED: "unrecoverable for the current run" (R77). Safe, as above (log 1). -/
  | coreFaulted
deriving DecidableEq, Repr

/-- Instructions without a meaning. -/
inductive Refusal where
  /-- Raised by an arm of exec that has no meaning yet. Safe: the model stops. No arm of this model raises it. -/
  | notModelled (mnemonic : String)
deriving DecidableEq, Repr

end Sys2Proof.Machine
end

