-- ==== Sys2Proof/Machine/Ops.lean ====
section
/-! DEFINITION. The named operations over memory, registers, the program counter and the stack pointer, and TAKING A
FAULT, which is one shared operation. An operation that can raise answers in Except: `.error c` is the spec's
`raise c` (00_scope.md section 6). There is no return from a fault to write beside it (60_exceptions.md R150). -/

namespace Sys2Proof.Machine

/-- The outcome of a step of this machine. -/
abbrev Result := Host.Outcome State Fault Refusal

/-- An operation's answer: a value, or the fault it raises. -/
abbrev Raises (α : Type) := Except FaultRecord α

/-! ### The memory array (20_memory.md R30 to R35) -/

/-- What an address that no cell of the list names reads as: memory is "zero-initialized" (R30, 10_state.md R21). -/
def Memory.unlisted : Byte := 0x00#8

/-- The byte `M[a]`. -/
def Memory.read : Memory → Nat → Byte
  | [], _ => Memory.unlisted
  | (b, w) :: m, a => if a = b then w else Memory.read m a

/-- Make `M[a] = v`, keeping the canonical form: a cell that would hold the unlisted byte is not listed. -/
def Memory.write : Memory → Nat → Byte → Memory
  | [], a, v => if v = Memory.unlisted then [] else [(a, v)]
  | (b, w) :: m, a, v =>
    if a < b then
      if v = Memory.unlisted then (b, w) :: m else (a, v) :: (b, w) :: m
    else if a = b then
      if v = Memory.unlisted then m else (a, v) :: m
    else (b, w) :: Memory.write m a v

/-- Every address is at least lo, strictly rising, below 256, and no cell holds the unlisted byte. -/
def Memory.wfFrom : Nat → Memory → Bool
  | _, [] => true
  | lo, (a, v) :: m =>
    decide (lo ≤ a) && decide (a < Config.memSize) && decide (v ≠ Memory.unlisted) && Memory.wfFrom (a + 1) m

/-- The canonical form of a memory. -/
def Memory.wf (m : Memory) : Bool := Memory.wfFrom 0 m

/-- Write consecutive bytes from an address upward. -/
def Memory.writeBytes : Memory → Nat → List Byte → Memory
  | m, _, [] => m
  | m, a, v :: vs => Memory.writeBytes (Memory.write m a v) (a + 1) vs

/-- Replace the memory array. -/
def State.setMem (s : State) (m : Memory) : State := { s with mem := m }

/-- `MemRead(addr, 1)` (20_memory.md R32). -/
def memRead (s : State) (addr : Nat) : Raises Byte :=
  if addr < Config.memSize then .ok (Memory.read s.mem addr) else .error (.outOfBoundsMem addr)

/-- `MemWrite(addr, 1, v)` (20_memory.md R33). -/
def memWrite (s : State) (addr : Nat) (v : Byte) : Raises State :=
  if addr < Config.memSize then .ok (s.setMem (Memory.write s.mem addr v)) else .error (.outOfBoundsMem addr)

/-! ### The register file (10_state.md R10, R20) -/

/-- The value of register i. -/
def State.reg (s : State) (i : Fin 8) : Byte := s.regs.get i

/-- Give register i the value v; every register is ordinary storage and independent of the others (R10, R20). -/
def State.setReg (s : State) (i : Fin 8) (v : Byte) : State := { s with regs := s.regs.set i v }

/-! ### The flags register, the output, the run state (10_state.md R15, R17, R18) -/

/-- Write all of FL. -/
def State.setFl (s : State) (v : Byte) : State := { s with fl := v }

/-- Append a byte to the output sequence. -/
def State.emit (s : State) (v : Byte) : State := { s with out := s.out ++ [v] }

/-- Make run HALTED; nothing else changes. -/
def State.halt (s : State) : State := { s with run := .halted }

/-! ### The program counter (10_state.md R13, 40_execution_loop.md R74) -/

/-- Zero-extend a byte to 9 bits (00_scope.md section 6). -/
def zext9 (v : Byte) : PcWord := v.setWidth 9

/-- Move pc forward by n bytes. Not reduced modulo 256 (R74, D1, log 3). -/
def State.advance (s : State) (n : Nat) : State := { s with pc := s.pc + BitVec.ofNat 9 n }

/-- Move pc to an 8-bit target, zero-extended (44_control_transfer.md R120). -/
def State.jump (s : State) (target : Byte) : State := { s with pc := zext9 target }

/-! ### The stack pointer (43_stack.md R110) -/

/-- SP is register 7. -/
def spIndex : Fin 8 := 7

/-- The value of SP. -/
def State.sp (s : State) : Byte := s.reg spIndex

/-- SP - 1 modulo 256 (R110, D5, log 10). -/
def State.decSp (s : State) : State := s.setReg spIndex (s.sp - 1#8)

/-- SP + 1 modulo 256 (R110, D5, log 10). -/
def State.incSp (s : State) : State := s.setReg spIndex (s.sp + 1#8)

/-- The address of the stack slot that SP points at (R110: "the 8-bit value of register 7 and nothing else"). -/
def State.stackAddr (s : State) : Nat := s.sp.toNat

/-- Read the byte on top of the stack. -/
def loadTop (s : State) : Raises Byte := memRead s s.stackAddr

/-- Write the byte on top of the stack. -/
def storeTop (s : State) (v : Byte) : Raises State := memWrite s s.stackAddr v

/-! ### Taking a fault (60_exceptions.md R148, R149) -/

/-- The state after a fault is raised in state s: run becomes FAULTED and the record receives the fault; no other state
changes, pc included. -/
def State.takeFault (s : State) (c : FaultRecord) : State := { s with run := .faulted, fault := some c }

/-- `raise c` in a step that started in state s. -/
def raise (s : State) (c : FaultRecord) : Result := .next (s.takeFault c)

/-- End a step that started in state s: the state the instruction made, or, if it raised a fault, s itself with the fault
taken, so that all the instruction's writes are discarded (R148, R149, D4, log 9). -/
def commit (s : State) (r : Raises State) : Result :=
  match r with
  | .ok t => .next t
  | .error c => raise s c

end Sys2Proof.Machine
end

