-- ==== Sys2Proof/Machine/Operands.lean ====
section
/-! DEFINITION. Operand forms (30_encoding.md R53, 10_state.md R12). There are two: a register operand, whose whole byte
is the register's index and is checked when the register is accessed, and LDI's immediate byte, which needs no
operation. A target address is the value of a register operand (44_control_transfer.md R120). -/

namespace Sys2Proof.Machine

/-- The register an operand byte names: 8 to 255 raises OutOfBounds(reg, byte) (10_state.md R12, D28, log 13). -/
def regIndex (b : Byte) : Raises (Fin 8) :=
  if h : b.toNat < 8 then .ok ⟨b.toNat, h⟩ else .error (.outOfBoundsReg b)

/-- The operand byte of register i. -/
def regByte (i : Fin 8) : Byte := BitVec.ofNat 8 i.val

/-- `x[b]`, a read through an operand byte. -/
def readReg (s : State) (b : Byte) : Raises Byte := do
  let i ← regIndex b
  return s.reg i

/-- `x[b] <- v`, a write through an operand byte. -/
def writeReg (s : State) (b v : Byte) : Raises State := do
  let i ← regIndex b
  return s.setReg i v

/-- The two sources of an ALU instruction, operand a checked first (41_alu.md R96, D18, log 12). -/
def readRegPair (s : State) (a b : Byte) : Raises (Byte × Byte) := do
  let va ← readReg s a
  let vb ← readReg s b
  return (va, vb)

end Sys2Proof.Machine
end

