-- ==== Sys2Proof/Machine/Alu.lean ====
section
/-! DEFINITION. ADD, SUB, MUL, DIV, CMP (41_alu.md R90 to R98). -/

namespace Sys2Proof.Machine

/-- An arithmetic instruction: read `x[a]`, `x[b]`, write op's result to `x[a]`, pc + 3; FL is not written (R90, R98). -/
def arithmetic (op : Byte → Byte → Raises Byte) (a b : Byte) (s : State) : Raises State := do
  let (va, vb) ← readRegPair s a b
  let r ← op va vb
  let t ← writeReg s a r
  return t.advance 3

/-- ADD a,b (R91): the sum modulo 256. -/
def execAdd (a b : Byte) (s : State) : Result :=
  commit s (arithmetic (fun va vb => .ok (va + vb)) a b s)

/-- SUB a,b (R92): the difference modulo 256. -/
def execSub (a b : Byte) (s : State) : Result :=
  commit s (arithmetic (fun va vb => .ok (va - vb)) a b s)

/-- MUL a,b (R93): the low 8 bits of the product. -/
def execMul (a b : Byte) (s : State) : Result :=
  commit s (arithmetic (fun va vb => .ok (va * vb)) a b s)

/-- The unsigned quotient; a zero divisor raises DivisionByZero with the address of the DIV (R94, R142). -/
def quotient (pc : PcWord) (va vb : Byte) : Raises Byte :=
  if vb = 0#8 then .error (.divisionByZero pc.toNat) else .ok (va / vb)

/-- DIV a,b (R94). -/
def execDiv (a b : Byte) (s : State) : Result :=
  commit s (arithmetic (quotient s.pc) a b s)

/-- CMP a,b (R95): all of FL is written, no register is. -/
def execCmp (a b : Byte) (s : State) : Result :=
  commit s do
    let (va, vb) ← readRegPair s a b
    return (s.setFl (compareFlags va vb)).advance 3

end Sys2Proof.Machine
end

