-- ==== Sys2Proof/Machine/Control.lean ====
section
/-! DEFINITION. CALL, RET, JMP, JEQ, JNE (44_control_transfer.md R120 to R125). Each writes pc itself on every path. -/

namespace Sys2Proof.Machine

/-- The return address of a CALL, pc + 2 as one byte (R121). At every pc a fetch can succeed at, pc <= 253 (R78), it is at
most 255 and fits (10_state.md R14; log 19 for the states no run reaches). -/
def returnAddress (pc : PcWord) : Byte := BitVec.ofNat 8 (pc.toNat + 2)

/-- CALL r (R121): the index is checked first, and the target is read after the push (D17, log 11). -/
def execCall (r : Byte) (s : State) : Result :=
  commit s do
    let i ← regIndex r
    let s1 := s.decSp
    let s2 ← storeTop s1 (returnAddress s.pc)
    return s2.jump (s2.reg i)

/-- RET (R122). -/
def execRet (s : State) : Result :=
  commit s do
    let target ← loadTop s
    return (s.jump target).incSp

/-- Jump to the address in a register. -/
def jumpToRegister (r : Byte) (s : State) : Raises State := do
  let target ← readReg s r
  return s.jump target

/-- JMP r (R123). -/
def execJmp (r : Byte) (s : State) : Result :=
  commit s (jumpToRegister r s)

/-- A conditional jump: only a taken jump reads its register (R124, R125, D18, log 12). -/
def branch (taken : Bool) (r : Byte) (s : State) : Raises State :=
  if taken then jumpToRegister r s else .ok (s.advance 2)

/-- JEQ r (R124): taken when E is set. -/
def execJeq (r : Byte) (s : State) : Result :=
  commit s (branch (flE s.fl) r s)

/-- JNE r (R125): taken when E is clear. -/
def execJne (r : Byte) (s : State) : Result :=
  commit s (branch (!flE s.fl) r s)

end Sys2Proof.Machine
end

