-- ==== Sys2Proof/Machine/Stack.lean ====
section
/-! DEFINITION. PUSH, POP (43_stack.md R110 to R112). The steps of each are taken in the order written (D17, log 11). -/

namespace Sys2Proof.Machine

/-- PUSH r (R111): the index is checked first, SP is decremented, and `x[r]` is read after that. -/
def execPush (r : Byte) (s : State) : Result :=
  commit s do
    let i ← regIndex r
    let s1 := s.decSp
    let s2 ← storeTop s1 (s1.reg i)
    return s2.advance 2

/-- POP r (R112): the register is written first and SP is incremented after that. -/
def execPop (r : Byte) (s : State) : Result :=
  commit s do
    let i ← regIndex r
    let v ← loadTop s
    let s1 := s.setReg i v
    return s1.incSp.advance 2

end Sys2Proof.Machine
end

