-- ==== Sys2Proof/Machine/System.lean ====
section
/-! DEFINITION. HLT, LDI, PRN (42_system_load_output.md R100 to R102). -/

namespace Sys2Proof.Machine

/-- HLT (R100): run becomes HALTED and pc keeps the address of the HLT (D8, log 8). -/
def execHlt (s : State) : Result := .next s.halt

/-- LDI r,v (R101). -/
def execLdi (r v : Byte) (s : State) : Result :=
  commit s do
    let t ← writeReg s r v
    return t.advance 3

/-- PRN r (R102): append the register's value to the output sequence. -/
def execPrn (r : Byte) (s : State) : Result :=
  commit s do
    let v ← readReg s r
    return (s.emit v).advance 2

end Sys2Proof.Machine
end

