-- ==== Sys2Proof/Machine/Fetch.lean ====
section
/-! DEFINITION. Instruction fetch (40_execution_loop.md R71, R78). -/

namespace Sys2Proof.Machine

/-- The three bytes of the current instruction (10_state.md R19): values of one step, no part of State (log 18). -/
structure Fetched where
  /-- The opcode byte. -/
  ir : Byte
  /-- The first trailing byte. -/
  opa : Byte
  /-- The second trailing byte. -/
  opb : Byte
deriving DecidableEq, Repr

/-- Read the three bytes at pc, pc + 1, pc + 2, always all three and in this order; the addresses are not reduced modulo
256 (R71, D2, log 4). -/
def fetch (s : State) : Raises Fetched := do
  let ir ← memRead s s.pc.toNat
  let opa ← memRead s (s.pc.toNat + 1)
  let opb ← memRead s (s.pc.toNat + 2)
  return ⟨ir, opa, opb⟩

/-- Where withFetchWord lays an instruction down: at pc, or at the entry point when no fetch can succeed at pc. -/
def fetchBase (s : State) : PcWord :=
  if s.pc.toNat ≤ 253 then s.pc else Config.pcInit

end Sys2Proof.Machine
end

