-- ==== Sys2Proof/Machine/Step.lean ====
section
/-! DEFINITION. One step of the core: fetch, decode, dispatch, execute (40_execution_loop.md R70 to R77). -/

namespace Sys2Proof.Machine

/-- The step function (R75). Its precondition is run = RUNNING; a core that is HALTED or FAULTED has no step (R77, log 1). -/
def step (s : State) : Host.Outcome State Fault Refusal :=
  match s.run with
  | .halted => .fault .coreHalted
  | .faulted => .fault .coreFaulted
  | .running =>
    match fetch s with
    | .error c => raise s c
    | .ok f =>
      match decode f.ir f.opa f.opb with
      | .error (.unsupportedOperation opcode) => raise s (.unsupportedOperation opcode)
      | .ok i => exec i s

/-- s with the instruction of a table word stored where step fetches its next instruction. It changes memory at three
addresses; pc only where no fetch can succeed at it, and run and the fault record only where the core has stopped, since
no step would follow (log 17). -/
def State.withFetchWord (s : State) (nbits w : Nat) : State :=
  { s with
    mem := Memory.writeBytes s.mem (fetchBase s).toNat [tableByte nbits w 0, tableByte nbits w 1, tableByte nbits w 2]
    pc := fetchBase s
    run := .running
    fault := none }

end Sys2Proof.Machine
end

