-- ==== Sys2Proof/Machine/Interfaces.lean ====
section
/-! DEFINITION. The host's side of the core: the load port, the status port and the console
(70_reset_and_hazards.md R174, R176, R177, R186; 60_exceptions.md R145; 10_state.md R18). Nothing here is a step. -/

namespace Sys2Proof.Machine

/-- Why the host does not start the core (60_exceptions.md R161): these are no states of the core. -/
inductive LaunchError where
  /-- The program file is missing or unreadable (LoadError). -/
  | loadError
  /-- A malformed line, named (ParseError). -/
  | parseError (line : List Char)
  /-- A line that the loader's rule says nothing about (91_not_in_source.md N15, log 20). -/
  | unspecifiedLine (line : List Char)
  /-- An image of more than 256 bytes (70_reset_and_hazards.md R176, D15, log 17). -/
  | imageTooLong (length : Nat)
deriving DecidableEq, Repr

/-- The load (R174, R175): the image's bytes go into memory from address 0, and nothing but memory changes. -/
def State.load (s : State) (image : List Byte) : Except LaunchError State :=
  if image.length ≤ Config.memSize then .ok (s.setMem (Memory.writeBytes s.mem Config.loadBase image))
  else .error (.imageTooLong image.length)

/-- The cause code of a fault (60_exceptions.md R145, D10, log 22). -/
def FaultRecord.code : FaultRecord → Nat
  | .unsupportedOperation _ => 1
  | .divisionByZero _ => 2
  | .outOfBoundsMem _ => 3
  | .outOfBoundsReg _ => 4

/-- The information value of a fault (R145). -/
def FaultRecord.info : FaultRecord → Nat
  | .unsupportedOperation opcode => opcode.toNat
  | .divisionByZero address => address
  | .outOfBoundsMem address => address
  | .outOfBoundsReg index => index.toNat

/-- The status port's cause code: 0 when no fault is recorded (R145). -/
def State.statusCode (s : State) : Nat := (s.fault.map FaultRecord.code).getD 0

/-- The status port's information value: 0 when no fault is recorded (R145). -/
def State.statusInfo (s : State) : Nat := (s.fault.map FaultRecord.info).getD 0

/-- What the host makes of the run state: HALTED is success, FAULTED is failure, RUNNING is neither (R161, R177). -/
def State.succeeded (s : State) : Option Bool :=
  match s.run with
  | .running => none
  | .halted => some true
  | .faulted => some false

/-- How the host renders one element of the output: its decimal numeral without leading zeros, and a newline (R18, D13,
log 16). -/
def renderByte (v : Byte) : List Char := Nat.toDigits 10 v.toNat ++ ['\n']

/-- The console text of an output sequence. -/
def renderOut (out : List Byte) : List Char := out.flatMap renderByte

end Sys2Proof.Machine
end

