-- ==== Sys2Proof/Machine/Loader.lean ====
section
/-! DEFINITION. The loader's program text (30_encoding.md R62): one byte a line, as eight binary digits. The loader is
outside CORE (00_scope.md section 4.2); this is the rule's text, so that a program can be given as the spec gives it. -/

namespace Sys2Proof.Machine

/-- "Only the text before the first # is considered" (R62). -/
def preComment (line : List Char) : List Char := line.takeWhile (fun c => c ≠ '#')

/-- The value of a binary digit. -/
def binaryDigit : Char → Option Nat
  | '0' => some 0
  | '1' => some 1
  | _ => none

/-- The value of binary digits, leftmost first, after the value acc. -/
def binaryValue : Nat → List Char → Option Nat
  | acc, [] => some acc
  | acc, c :: cs =>
    match binaryDigit c with
    | some d => binaryValue (2 * acc + d) cs
    | none => none

/-- The byte of a binary literal: its first 8 characters, all of them binary digits (R62). -/
def binaryLiteral (text : List Char) : Option Byte :=
  if text.length < 8 then none else (binaryValue 0 (text.take 8)).map (BitVec.ofNat 8)

/-- What one line contributes: nothing (blank or comment), a byte, or an error (R62; N15, log 20). -/
def parseLine (line : List Char) : Except LaunchError (Option Byte) :=
  match preComment line with
  | [] => .ok none
  | c :: cs =>
    if c = '0' ∨ c = '1' then
      match binaryLiteral (c :: cs) with
      | some b => .ok (some b)
      | none => .error (.parseError line)
    else .error (.unspecifiedLine line)

/-- The image of a program text: its bytes in line order (R62). -/
def parseText : List (List Char) → Except LaunchError (List Byte)
  | [] => .ok []
  | line :: lines => do
    let b ← parseLine line
    let bs ← parseText lines
    return b.toList ++ bs

/-- Reset, then load the program file; none is a file that cannot be read (60_exceptions.md R161). -/
def launch (file : Option (List (List Char))) : Except LaunchError State :=
  match file with
  | none => .error .loadError
  | some lines => do
    let image ← parseText lines
    State.reset.load image

/-- The eight binary digits of a byte; the leftmost is bit 7 (R62). -/
def binaryDigits (b : Byte) : List Char :=
  [7, 6, 5, 4, 3, 2, 1, 0].map (fun k => if b.getLsbD k then '1' else '0')

end Sys2Proof.Machine
end

