-- ==== Sys2Proof/Machine/Run.lean ====
section
/-! DEFINITION. Running the machine (40_execution_loop.md R80) under fuel, which is the runner's and no state of the core
(70_reset_and_hazards.md R183, D16). -/

namespace Sys2Proof.Machine

/-- "while run = RUNNING: step()", at most this many steps. A run that is out of fuel is still RUNNING. -/
def runMachine : Nat → State → State
  | 0, s => s
  | k + 1, s =>
    match step s with
    | .next t => runMachine k t
    | .fault _ => s
    | .refused _ => s

end Sys2Proof.Machine
end

