-- ==== Sys2Proof/WellFormed.lean ====
section
/-! DEFINITION. Well-formed instructions: every register operand names a register that exists (30_encoding.md R52, R53:
"valid 0 to 7"). This is a property programs want, not a condition of execution: an ill-formed instruction decodes and
runs, and takes the OutOfBounds fault when it accesses the register (10_state.md R12, log 13). -/

namespace Sys2Proof

/-- The operand byte is the index of a register, 0 to 7 (30_encoding.md R53). -/
def validRegister (r : Byte) : Bool := decide (r.toNat < Config.numRegs)

/-- Every register operand of the instruction is valid. LDI's immediate may be any byte (42_system_load_output.md R101). -/
def Instr.wellFormed : Instr → Bool
  | .hlt => true
  | .ret => true
  | .push r => validRegister r
  | .pop r => validRegister r
  | .prn r => validRegister r
  | .call r => validRegister r
  | .jmp r => validRegister r
  | .jeq r => validRegister r
  | .jne r => validRegister r
  | .ldi r _ => validRegister r
  | .add a b => validRegister a && validRegister b
  | .sub a b => validRegister a && validRegister b
  | .mul a b => validRegister a && validRegister b
  | .div a b => validRegister a && validRegister b
  | .cmp a b => validRegister a && validRegister b

end Sys2Proof
end

