-- ==== Sys2Proof/Safety.lean ====
section
/-! DEFINITION. The terms that claims are made in: the machine's invariant, what an instruction may change, which fault a
step raises according to the spec's tables, and sequences of instructions. None of it is called by step. -/

namespace Sys2Proof.Machine

/-- The invariant of the core: the facts the spec states of every state (10_state.md R14, R15, R22) and the canonical form
of memory. -/
structure Inv (s : State) : Prop where
  /-- Memory is in its canonical form. -/
  memory : Memory.wf s.mem = true
  /-- "The value of pc is always in the range 0 to 256" (R14). -/
  pc_range : s.pc.toNat ≤ 256
  /-- FL is 0x00, or exactly one of E, G, L is set (R15). -/
  flags : s.fl = 0x00#8 ∨ s.fl = 0x01#8 ∨ s.fl = 0x02#8 ∨ s.fl = 0x04#8
  /-- There is a fault record exactly when run is FAULTED (R22). -/
  record : s.run = .faulted ↔ s.fault.isSome = true

/-! ### Frames -/

/-- Every register outside the list keeps its value. -/
def SameRegsExcept (rs : List (Fin 8)) (s t : State) : Prop := ∀ r, r ∉ rs → t.reg r = s.reg r

/-- Every byte of memory reads as before. -/
def SameMemory (s t : State) : Prop := ∀ a, Memory.read t.mem a = Memory.read s.mem a

/-- Every byte of memory but the one at this address reads as before. -/
def SameMemoryExcept (stored : Nat) (s t : State) : Prop :=
  ∀ a, a ≠ stored → Memory.read t.mem a = Memory.read s.mem a

/-- The run state and the fault record are unchanged. -/
def SameRun (s t : State) : Prop := t.run = s.run ∧ t.fault = s.fault

/-- The operand bytes of the registers an instruction writes, SP's included (the table of 10_state.md R12). -/
def writtenRegisters : Instr → List Byte
  | .hlt => []
  | .ret => [regByte spIndex]
  | .push _ => [regByte spIndex]
  | .pop r => [r, regByte spIndex]
  | .prn _ => []
  | .call _ => [regByte spIndex]
  | .jmp _ => []
  | .jeq _ => []
  | .jne _ => []
  | .ldi r _ => [r]
  | .add a _ => [a]
  | .sub a _ => [a]
  | .mul a _ => [a]
  | .div a _ => [a]
  | .cmp _ _ => []

/-- The address an instruction stores to (20_memory.md R38): the stack slot of the decremented SP. -/
def storedAddress (s : State) : Instr → Option Nat
  | .hlt => none
  | .ret => none
  | .push _ => some s.decSp.stackAddr
  | .pop _ => none
  | .prn _ => none
  | .call _ => some s.decSp.stackAddr
  | .jmp _ => none
  | .jeq _ => none
  | .jne _ => none
  | .ldi _ _ => none
  | .add _ _ => none
  | .sub _ _ => none
  | .mul _ _ => none
  | .div _ _ => none
  | .cmp _ _ => none

/-! ### Which fault a step raises (60_exceptions.md R146, R147) -/

/-- A register operand's fault. -/
def badRegister (b : Byte) : Option FaultRecord :=
  if 8 ≤ b.toNat then some (.outOfBoundsReg b) else none

/-- The first fault of several, in the order of the list (R146). -/
def firstFault : List (Option FaultRecord) → Option FaultRecord
  | [] => none
  | some c :: _ => some c
  | none :: rest => firstFault rest

/-- DIV's divisor register holds 0 (R142). -/
def zeroDivisor (s : State) (b : Byte) : Option FaultRecord :=
  if ∃ r : Fin 8, b = regByte r ∧ s.reg r = 0#8 then some (.divisionByZero s.pc.toNat) else none

/-- The fault an instruction raises in a state, as the table of R147 has it. -/
def instructionFault (s : State) : Instr → Option FaultRecord
  | .hlt => none
  | .ret => none
  | .push r => badRegister r
  | .pop r => badRegister r
  | .prn r => badRegister r
  | .call r => badRegister r
  | .jmp r => badRegister r
  | .jeq r => if flE s.fl then badRegister r else none
  | .jne r => if flE s.fl then none else badRegister r
  | .ldi r _ => badRegister r
  | .add a b => firstFault [badRegister a, badRegister b]
  | .sub a b => firstFault [badRegister a, badRegister b]
  | .mul a b => firstFault [badRegister a, badRegister b]
  | .div a b => firstFault [badRegister a, badRegister b, zeroDivisor s b]
  | .cmp a b => firstFault [badRegister a, badRegister b]

/-- The fault a step of a running core raises, as the priority list of R146 has it. -/
def stepFault (s : State) : Option FaultRecord :=
  if 254 ≤ s.pc.toNat then some (.outOfBoundsMem 256)
  else
    match decode (Memory.read s.mem s.pc.toNat) (Memory.read s.mem (s.pc.toNat + 1)) (Memory.read s.mem (s.pc.toNat + 2)) with
    | .error (.unsupportedOperation opcode) => some (.unsupportedOperation opcode)
    | .ok i => instructionFault s i

/-- s with a fault taken, spelled out (60_exceptions.md R148, R149). -/
def faultedWith (s : State) (c : FaultRecord) : State := { s with run := .faulted, fault := some c }

/-! ### Sequences of instructions -/

/-- The meanings of the instructions one after the other. -/
def execAll : List Instr → State → Option State
  | [], s => some s
  | i :: is, s =>
    match exec i s with
    | .next t => execAll is t
    | .fault _ => none
    | .refused _ => none

/-- The next state of an outcome, if it is one. -/
def nextState? : Host.Outcome State Fault Refusal → Option State
  | .next t => some t
  | .fault _ => none
  | .refused _ => none

end Sys2Proof.Machine
end

