-- ==== Sys2Proof/Certificates/Slice0/Obligations.lean ====
section
/-! DEFINITION. The statements for the provers. Each docstring says what it formalises. Where a clause rests on one of the
spec's own decisions (92_eei_decisions.md Dn) or on a convention of the model, the docstring says so and names the log
entry, and the statement is 'derived'. `regByte i` is the operand byte of register i; an operand byte is some `regByte i`
or is 8 or more. -/

open Sys2Proof Sys2Proof.Machine

/-! ### Encoding -/

/-- 30_encoding.md R54, every row: bits, decimal, fields N, A, C, I, and the instruction the byte decodes to with any two
bytes after it. -/
def Obligations.OpcodeTableRowsDecode : Prop :=
  (∀ row ∈ ([(0b00000001#8, 1, 0, false, false, 0b0001), (0b00010001#8, 17, 0, false, true, 0b0001),
      (0b01000101#8, 69, 1, false, false, 0b0101), (0b01000110#8, 70, 1, false, false, 0b0110),
      (0b01000111#8, 71, 1, false, false, 0b0111), (0b01010000#8, 80, 1, false, true, 0b0000),
      (0b01010100#8, 84, 1, false, true, 0b0100), (0b01010101#8, 85, 1, false, true, 0b0101),
      (0b01010110#8, 86, 1, false, true, 0b0110), (0b10000010#8, 130, 2, false, false, 0b0010),
      (0b10100000#8, 160, 2, true, false, 0b0000), (0b10100001#8, 161, 2, true, false, 0b0001),
      (0b10100010#8, 162, 2, true, false, 0b0010), (0b10100011#8, 163, 2, true, false, 0b0011),
      (0b10100111#8, 167, 2, true, false, 0b0111)] : List (Byte × Nat × Nat × Bool × Bool × Nat)),
    row.1.toNat = row.2.1 ∧ operandCount row.1 = row.2.2.1 ∧ isAlu row.1 = row.2.2.2.1 ∧
      setsPc row.1 = row.2.2.2.2.1 ∧ selector row.1 = row.2.2.2.2.2) ∧
  ∀ p q : Byte,
    decode 0b00000001#8 p q = .ok .hlt ∧ decode 0b00010001#8 p q = .ok .ret ∧
    decode 0b01000101#8 p q = .ok (.push p) ∧ decode 0b01000110#8 p q = .ok (.pop p) ∧
    decode 0b01000111#8 p q = .ok (.prn p) ∧ decode 0b01010000#8 p q = .ok (.call p) ∧
    decode 0b01010100#8 p q = .ok (.jmp p) ∧ decode 0b01010101#8 p q = .ok (.jeq p) ∧
    decode 0b01010110#8 p q = .ok (.jne p) ∧ decode 0b10000010#8 p q = .ok (.ldi p q) ∧
    decode 0b10100000#8 p q = .ok (.add p q) ∧ decode 0b10100001#8 p q = .ok (.sub p q) ∧
    decode 0b10100010#8 p q = .ok (.mul p q) ∧ decode 0b10100011#8 p q = .ok (.div p q) ∧
    decode 0b10100111#8 p q = .ok (.cmp p q)

/-- 30_encoding.md R55: the decoder accepts exactly the 15 opcode bytes, whatever follows, and rejects every other by its
own name; a byte that merely has the fields of an instruction (0xA4) is rejected. -/
def Obligations.OnlyExactOpcodeMatchesDecode : Prop :=
  (∀ ir p q : Byte,
    (∃ i, decode ir p q = .ok i ∧ i.opcode = ir) ∧
        ir ∈ [0x01#8, 0x11#8, 0x45#8, 0x46#8, 0x47#8, 0x50#8, 0x54#8, 0x55#8, 0x56#8, 0x82#8, 0xA0#8, 0xA1#8, 0xA2#8,
          0xA3#8, 0xA7#8] ∨
      decode ir p q = .error (.unsupportedOperation ir) ∧
        ir ∉ [0x01#8, 0x11#8, 0x45#8, 0x46#8, 0x47#8, 0x50#8, 0x54#8, 0x55#8, 0x56#8, 0x82#8, 0xA0#8, 0xA1#8, 0xA2#8,
          0xA3#8, 0xA7#8]) ∧
  operandCount 0xA4#8 = 2 ∧ isAlu 0xA4#8 = true ∧ setsPc 0xA4#8 = false ∧
    ∀ p q, decode 0xA4#8 p q = .error (.unsupportedOperation 0xA4#8)

/-- Decode and encode agree, both ways: the bytes of every instruction, with any bytes after them, decode to it; and the
bytes a decoded instruction was read from begin with its encoding (30_encoding.md sections 1, 2, 4). -/
def Obligations.DecodeAndEncodeAgree : Prop :=
  (∀ (i : Instr) (p q : Byte),
    decode ((encode i ++ [p, q]).getD 0 0#8) ((encode i ++ [p, q]).getD 1 0#8) ((encode i ++ [p, q]).getD 2 0#8) = .ok i) ∧
  ∀ (ir p q : Byte) (i : Instr), decode ir p q = .ok i → encode i = [ir, p, q].take (1 + operandCount ir)

/-- 40_execution_loop.md R72: the three values decode computes from the opcode byte, and what becomes of a byte whose
operand count comes out as 3. -/
def Obligations.OpcodeFieldsAreItsHighBits : Prop :=
  ∀ ir : Byte,
    operandCount ir = ir.toNat / 64 ∧ (isAlu ir = true ↔ ir.toNat / 32 % 2 = 1) ∧
      (setsPc ir = true ↔ ir.toNat / 16 % 2 = 1) ∧ (operandCount ir = 3 ↔ 0xC0 ≤ ir.toNat) ∧
      (operandCount ir = 3 → ∀ p q, decode ir p q = .error (.unsupportedOperation ir))

/-- 30_encoding.md R50: an instruction is its opcode byte and as many operand bytes as the opcode's two high bits say, 1 to
3 bytes in all, at consecutive ascending addresses: written at an address, it is read and decoded from there. -/
def Obligations.InstructionsLieAtAscendingAddresses : Prop :=
  ∀ (i : Instr) (m : Memory) (a : Nat), Memory.wf m = true → a ≤ 253 →
    (encode i).length = 1 + i.opcode.toNat / 64 ∧ (encode i).length ≤ 3 ∧
    Memory.read (Memory.writeBytes m a (encode i)) a = i.opcode ∧
    (∀ k, k < i.operands.length → Memory.read (Memory.writeBytes m a (encode i)) (a + 1 + k) = i.operands.getD k 0#8) ∧
    decode (Memory.read (Memory.writeBytes m a (encode i)) a) (Memory.read (Memory.writeBytes m a (encode i)) (a + 1))
      (Memory.read (Memory.writeBytes m a (encode i)) (a + 2)) = .ok i

/-- The trailing bytes an instruction does not use have no influence on what it decodes to (30_encoding.md section 3; the
spec's decision D19). -/
def Obligations.UnusedTrailingBytesAreIgnored : Prop :=
  ∀ ir p q p' q' : Byte,
    (operandCount ir ≤ 1 → decode ir p q = decode ir p q') ∧ (operandCount ir = 0 → decode ir p q = decode ir p' q')

/-! ### Memory and registers -/

/-- 20_memory.md R32, R33: a read in 0 to 255 returns the cell, a write makes the cell v and changes no other cell and
nothing else, and an access above 255 raises OutOfBounds with the address. -/
def Obligations.MemoryPrimitivesAccessOneCell : Prop :=
  ∀ (s : State) (a : Nat) (v : Byte), Memory.wf s.mem = true →
    (a ≤ 255 → memRead s a = .ok (Memory.read s.mem a) ∧
      ∃ t, memWrite s a v = .ok t ∧ Memory.read t.mem a = v ∧ SameMemoryExcept a s t ∧ SameRegsExcept [] s t ∧
        t.pc = s.pc ∧ t.fl = s.fl ∧ t.out = s.out ∧ SameRun s t) ∧
    (255 < a → memRead s a = .error (.outOfBoundsMem a) ∧ memWrite s a v = .error (.outOfBoundsMem a))

/-- 10_state.md R20: a write to one register changes no other register, and a write to one cell no other cell. -/
def Obligations.RegistersAndCellsAreIndependent : Prop :=
  (∀ (s : State) (i j : Fin 8) (v : Byte), (s.setReg i v).reg i = v ∧ (i ≠ j → (s.setReg i v).reg j = s.reg j)) ∧
  ∀ (m : Memory) (a b : Nat) (v : Byte), Memory.wf m = true →
    Memory.read (Memory.write m a v) a = v ∧ (a ≠ b → Memory.read (Memory.write m a v) b = Memory.read m b)

/-- Canonical memories that read the same everywhere are the same data (the model's listing of 20_memory.md section 1's
cells). -/
def Obligations.CanonicalMemoriesAreEqualWhenTheyReadTheSame : Prop :=
  ∀ m n : Memory, Memory.wf m = true → Memory.wf n = true → (∀ a, a ≤ 255 → Memory.read m a = Memory.read n a) → m = n

/-! ### Reset and load -/

/-- 20_memory.md R30: memory has exactly the addresses 0 to 255, and after reset every one of these cells holds 0. -/
def Obligations.ResetMemoryIsZeroInAllCells : Prop :=
  ∀ a, (a ≤ 255 → memRead State.reset a = .ok 0x00#8) ∧ ∀ s : State, (∃ v, memRead s a = .ok v) ↔ a ≤ 255

/-- The reset values of everything but memory, which are also what the first step after any load starts from
(10_state.md section 8). R0 to R6 and FL are the spec's decisions D6 and D7 (logs 6 and 7, both unsafe), the fault record
D9 (log 2), the output D13 (log 16). -/
def Obligations.FirstStepStartsFromTheResetValues : Prop :=
  ∀ s : State, (s = State.reset ∨ ∃ image : List Byte, State.reset.load image = .ok s) →
    (∀ r, r ≠ 7 → s.reg r = 0x00#8) ∧ s.reg 7 = 0xF4#8 ∧ s.pc.toNat = 0 ∧ s.fl = 0x00#8 ∧ s.run = .running ∧
      s.fault = none ∧ s.out = []

/-- 70_reset_and_hazards.md R174: a load puts the image at address 0 upward, leaves 0x00 in every other cell, and changes
memory only. (An image has at most 256 bytes: R176, the spec's decision D15.) -/
def Obligations.LoadPlacesTheImageFromAddressZero : Prop :=
  ∀ image : List Byte, image.length ≤ 256 →
    ∃ t, State.reset.load image = .ok t ∧ (∀ i, i < image.length → Memory.read t.mem i = image.getD i 0#8) ∧
      (∀ i, image.length ≤ i → i ≤ 255 → Memory.read t.mem i = 0x00#8) ∧ SameRegsExcept [] State.reset t ∧
      t.pc = State.reset.pc ∧ t.fl = State.reset.fl ∧ t.out = State.reset.out ∧ SameRun State.reset t

/-- An image of more than 256 bytes is refused before the core starts (70_reset_and_hazards.md section 2; the spec's
decision D15, log 17). -/
def Obligations.LongImageIsRefused : Prop :=
  ∀ (s : State) (image : List Byte), 256 < image.length → s.load image = .error (.imageTooLong image.length)

/-- 70_reset_and_hazards.md R172: pc is 0 after reset, and the first instruction executed after a load is the one whose
opcode is `M[0]`, the image's first byte. -/
def Obligations.FirstOpcodeIsTheByteAtAddressZero : Prop :=
  State.reset.pc.toNat = 0 ∧
  ∀ (image : List Byte) (t : State), State.reset.load image = .ok t →
    ∃ f, fetch t = .ok f ∧ f.ir = Memory.read t.mem 0 ∧ f.ir = image.getD 0 0x00#8 ∧
      ∀ i, decode f.ir f.opa f.opb = .ok i → step t = exec i t

/-- The loader's program text (30_encoding.md section 8, outside CORE): a line that begins with eight binary digits gives
their byte, a blank line or a comment gives nothing, a line that begins with 0 or 1 and has fewer than eight binary digits
first is a ParseError naming it, and a text is its lines in order. That the first clause holds WHATEVER FOLLOWS the eighth
digit (any `rest`, a ninth digit included) is the model's own DESIGN CHOICE (log 20): 91_not_in_source.md N15 says that the
source does not say it. -/
def Obligations.ProgramTextGivesOneByteALine : Prop :=
  (∀ (b : Byte) (rest : List Char), parseLine (binaryDigits b ++ rest) = .ok (some b)) ∧
  (∀ comment : List Char, parseLine [] = .ok none ∧ parseLine ('#' :: comment) = .ok none) ∧
  (∀ line : List Char, (line.head? = some '0' ∨ line.head? = some '1') →
    (line.takeWhile (fun c => c = '0' || c = '1')).length < 8 → parseLine line = .error (.parseError line)) ∧
  parseText [] = .ok [] ∧
  ∀ (line : List Char) (lines : List (List Char)) (bs : List Byte), parseText lines = .ok bs →
    (parseLine line = .ok none → parseText (line :: lines) = .ok bs) ∧
    ∀ b, parseLine line = .ok (some b) → parseText (line :: lines) = .ok (b :: bs)

/-! ### The step -/

/-- A step of a running core whose three bytes at pc decode to an instruction is that instruction's meaning; nothing is
added around it (40_execution_loop.md section 6). -/
def Obligations.StepRunsTheDecodedInstruction : Prop :=
  ∀ (s : State) (i : Instr), s.run = .running → s.pc.toNat ≤ 253 →
    decode (Memory.read s.mem s.pc.toNat) (Memory.read s.mem (s.pc.toNat + 1)) (Memory.read s.mem (s.pc.toNat + 2)) = .ok i →
    step s = exec i s

/-- An instruction whose bytes stand in memory at pc is what a step of a running core executes, whatever bytes follow. -/
def Obligations.StepRunsTheInstructionEncodedAtPc : Prop :=
  ∀ (s : State) (i : Instr), s.run = .running → s.pc.toNat ≤ 253 →
    (∀ k, k < (encode i).length → Memory.read s.mem (s.pc.toNat + k) = (encode i).getD k 0#8) → step s = exec i s

/-- withFetchWord places exactly the table word's instruction where the very next step runs it (the model's own
interface, log 17). -/
def Obligations.FetchWordIsTheNextInstruction : Prop :=
  ∀ (s : State) (nbits w : Nat) (i : Instr), Memory.wf s.mem = true → decodeTableWord nbits w = some i →
    step (s.withFetchWord nbits w) = exec i (s.withFetchWord nbits w)

/-- At pc 254, 255 or 256 the fetch raises OutOfBounds(mem, 256) whatever is in memory, and at every lower pc it succeeds
(40_execution_loop.md section 2). Four of the spec's decisions carry it: the eager fetch D2 (log 4), a pc that can be 256
D1 (log 3), FAULTED D9 (log 2), and that the fault changes nothing else D4 (log 9, unsafe; 60_exceptions.md section 4). -/
def Obligations.FetchFaultsExactlyAtTheTopOfMemory : Prop :=
  ∀ s : State, s.run = .running →
    (254 ≤ s.pc.toNat → s.pc.toNat ≤ 256 → step s = .next (faultedWith s (.outOfBoundsMem 256))) ∧
    (s.pc.toNat ≤ 253 → ∃ f, fetch s = .ok f)

/-- A byte at pc that is none of the 15 opcodes raises UnsupportedOperation with that byte, 0x00 among them, whatever
follows it (30_encoding.md section 5; 60_exceptions.md section 4; FAULTED and the precise state are the spec's decisions D9,
log 2, and D4, log 9, unsafe). -/
def Obligations.UnsupportedOpcodesFault : Prop :=
  ∀ s : State, s.run = .running → s.pc.toNat ≤ 253 →
    Memory.read s.mem s.pc.toNat ∉ [0x01#8, 0x11#8, 0x45#8, 0x46#8, 0x47#8, 0x50#8, 0x54#8, 0x55#8, 0x56#8, 0x82#8, 0xA0#8,
      0xA1#8, 0xA2#8, 0xA3#8, 0xA7#8] →
    step s = .next (faultedWith s (.unsupportedOperation (Memory.read s.mem s.pc.toNat)))

/-- A core that is HALTED or FAULTED has no step, and running it any longer leaves its state as it is
(40_execution_loop.md section 1; that the model answers a stop is its own choice, log 1). -/
def Obligations.StoppedCoreHasNoStep : Prop :=
  ∀ s : State,
    (s.run = .halted → step s = .fault .coreHalted) ∧ (s.run = .faulted → step s = .fault .coreFaulted) ∧
    (s.run ≠ .running → ∀ k, runMachine k s = s)

/-- A running core always has a next state: no step of it stops and no instruction is refused (40_execution_loop.md
section 1). -/
def Obligations.RunningCoreAlwaysHasANextState : Prop :=
  ∀ s : State, s.run = .running → ∃ t, step s = .next t

/-- Every step keeps the invariant: memory canonical, pc in 0 to 256, FL one of its four values, a fault record exactly when
FAULTED (10_state.md sections 3 to 5). -/
def Obligations.StepKeepsTheInvariant : Prop :=
  ∀ s t : State, Inv s → step s = .next t → Inv t

/-- The invariant holds after reset, and after every load. -/
def Obligations.InvariantHoldsAfterResetAndLoad : Prop :=
  Inv State.reset ∧ ∀ (image : List Byte) (t : State), State.reset.load image = .ok t → Inv t

/-! ### Faults -/

/-- The fault a step raises is exactly the first one of the priority list, by the spec's tables of which instruction raises
what (60_exceptions.md sections 2 to 4); when there is none the step completes without a fault. These of the spec's
decisions carry it: the order D3 (log 5, unsafe), the check at access D18 (log 12), the whole byte as index D28 (log 13),
the eager fetch D2 (log 4), FAULTED D9 (log 2), and that the fault changes nothing else D4 (log 9, unsafe). -/
def Obligations.StepRaisesTheFirstFaultOfTheList : Prop :=
  ∀ s : State, Inv s → s.run = .running →
    (∀ c, stepFault s = some c → step s = .next (faultedWith s c)) ∧
    (stepFault s = none → ∃ t, step s = .next t ∧ t.run ≠ .faulted ∧ t.fault = none)

/-- Faults are precise: a step that ends FAULTED changed nothing but run and the fault record, which it filled
(60_exceptions.md section 4; the spec's decision D4, log 9, unsafe; FAULTED is D9, log 2). -/
def Obligations.FaultsChangeNothingElse : Prop :=
  ∀ s t : State, step s = .next t → t.run = .faulted →
    t.fault ≠ none ∧ t = { s with run := .faulted, fault := t.fault }

/-- A well-formed instruction raises a fault only as DIV with a zero divisor (60_exceptions.md section 2). -/
def Obligations.WellFormedFaultsOnlyOnAZeroDivisor : Prop :=
  ∀ (i : Instr) (s t : State), i.wellFormed = true → s.run ≠ .faulted → exec i s = .next t → t.run = .faulted →
    t.fault = some (.divisionByZero s.pc.toNat) ∧ ∃ a b : Fin 8, i = .div (regByte a) (regByte b) ∧ s.reg b = 0#8

/-- An operand byte of 8 or more raises OutOfBounds(reg, byte) in LDI, PRN, PUSH, POP, CALL and JMP, with nothing changed
(60_exceptions.md sections 2 and 4; of the spec's decisions, the whole byte as index is D28, log 13, FAULTED D9, log 2, and
that nothing else changes D4, log 9, unsafe). -/
def Obligations.RegisterIndexAboveSevenFaults : Prop :=
  ∀ (r v : Byte) (s : State), 8 ≤ r.toNat →
    exec (.ldi r v) s = .next (faultedWith s (.outOfBoundsReg r)) ∧
    exec (.prn r) s = .next (faultedWith s (.outOfBoundsReg r)) ∧
    exec (.push r) s = .next (faultedWith s (.outOfBoundsReg r)) ∧
    exec (.pop r) s = .next (faultedWith s (.outOfBoundsReg r)) ∧
    exec (.call r) s = .next (faultedWith s (.outOfBoundsReg r)) ∧
    exec (.jmp r) s = .next (faultedWith s (.outOfBoundsReg r))

/-- The five ALU instructions check operand a, then operand b, before anything else (41_alu.md section 1; 60_exceptions.md
section 4). These of the spec's decisions carry it: the order and time of the check D18 (log 12), the whole byte as index D28
(log 13), FAULTED D9 (log 2), and that the fault changes no state at all beside run and the record D4 (log 9, unsafe). -/
def Obligations.AluChecksOperandAThenOperandB : Prop :=
  ∀ op ∈ [Instr.add, Instr.sub, Instr.mul, Instr.div, Instr.cmp], ∀ (a b : Byte) (s : State),
    (8 ≤ a.toNat → exec (op a b) s = .next (faultedWith s (.outOfBoundsReg a))) ∧
    (a.toNat < 8 → 8 ≤ b.toNat → exec (op a b) s = .next (faultedWith s (.outOfBoundsReg b)))

/-- The status port's cause codes and information values (60_exceptions.md section 2, table of codes; the numbers are the
spec's decision D10, log 22). -/
def Obligations.StatusPortReportsTheFault : Prop :=
  ∀ s : State,
    (s.fault = none → s.statusCode = 0 ∧ s.statusInfo = 0) ∧
    (∀ op, (faultedWith s (.unsupportedOperation op)).statusCode = 1 ∧
      (faultedWith s (.unsupportedOperation op)).statusInfo = op.toNat) ∧
    (∀ a, (faultedWith s (.divisionByZero a)).statusCode = 2 ∧ (faultedWith s (.divisionByZero a)).statusInfo = a) ∧
    (∀ a, (faultedWith s (.outOfBoundsMem a)).statusCode = 3 ∧ (faultedWith s (.outOfBoundsMem a)).statusInfo = a) ∧
    (∀ i, (faultedWith s (.outOfBoundsReg i)).statusCode = 4 ∧ (faultedWith s (.outOfBoundsReg i)).statusInfo = i.toNat)

/-! ### Arithmetic and comparison -/

/-- ADD completes on every two registers: the sum modulo 256 in a, every other register unchanged, pc + 3, and nothing else
(41_alu.md section 2; wrapping is the spec's decision D12, log 14). -/
def Obligations.AddWritesTheSumModulo256 : Prop :=
  ∀ (a b : Fin 8) (s : State), ∃ t, exec (.add (regByte a) (regByte b)) s = .next t ∧
    (t.reg a).toNat = ((s.reg a).toNat + (s.reg b).toNat) % 256 ∧ SameRegsExcept [a] s t ∧ t.pc = s.pc + 3#9 ∧
    t.fl = s.fl ∧ SameMemory s t ∧ t.out = s.out ∧ SameRun s t

/-- SUB completes on every two registers: the mathematical difference modulo 256 in a (41_alu.md section 3; D12, log 14). -/
def Obligations.SubWritesTheDifferenceModulo256 : Prop :=
  ∀ (a b : Fin 8) (s : State), ∃ t, exec (.sub (regByte a) (regByte b)) s = .next t ∧
    ((t.reg a).toNat : Int) = (((s.reg a).toNat : Int) - ((s.reg b).toNat : Int)) % 256 ∧ SameRegsExcept [a] s t ∧
    t.pc = s.pc + 3#9 ∧ t.fl = s.fl ∧ SameMemory s t ∧ t.out = s.out ∧ SameRun s t

/-- MUL completes on every two registers: the low 8 bits of the product in a (41_alu.md section 4; D12, log 14). -/
def Obligations.MulWritesTheProductModulo256 : Prop :=
  ∀ (a b : Fin 8) (s : State), ∃ t, exec (.mul (regByte a) (regByte b)) s = .next t ∧
    (t.reg a).toNat = ((s.reg a).toNat * (s.reg b).toNat) % 256 ∧ SameRegsExcept [a] s t ∧ t.pc = s.pc + 3#9 ∧
    t.fl = s.fl ∧ SameMemory s t ∧ t.out = s.out ∧ SameRun s t

/-- DIV completes on every two registers whose divisor is not 0: the unsigned floor quotient in a; a divisor of 0 raises
DivisionByZero with the address of the DIV and changes nothing else (41_alu.md section 5; the quotient is the spec's
decision D11, log 15; FAULTED D9, log 2, and the precise state D4, log 9, unsafe; 60_exceptions.md section 4). -/
def Obligations.DivWritesTheQuotientOrFaultsOnZero : Prop :=
  ∀ (a b : Fin 8) (s : State),
    (s.reg b ≠ 0#8 → ∃ t, exec (.div (regByte a) (regByte b)) s = .next t ∧
      (t.reg a).toNat = (s.reg a).toNat / (s.reg b).toNat ∧ SameRegsExcept [a] s t ∧ t.pc = s.pc + 3#9 ∧
      t.fl = s.fl ∧ SameMemory s t ∧ t.out = s.out ∧ SameRun s t) ∧
    (s.reg b = 0#8 → exec (.div (regByte a) (regByte b)) s = .next (faultedWith s (.divisionByZero s.pc.toNat)))

/-- CMP completes on every two registers: FL is 0x01, 0x02 or 0x04 by the unsigned comparison, whatever it was before, and
no register changes (41_alu.md section 6; bits 7:3 are 0 by the spec's decision D20, log 21). -/
def Obligations.CmpRecomputesTheFlags : Prop :=
  ∀ (a b : Fin 8) (s : State), ∃ t, exec (.cmp (regByte a) (regByte b)) s = .next t ∧
    ((s.reg a).toNat = (s.reg b).toNat → t.fl = 0x01#8) ∧ ((s.reg b).toNat < (s.reg a).toNat → t.fl = 0x02#8) ∧
    ((s.reg a).toNat < (s.reg b).toNat → t.fl = 0x04#8) ∧ SameRegsExcept [] s t ∧ t.pc = s.pc + 3#9 ∧
    SameMemory s t ∧ t.out = s.out ∧ SameRun s t

/-- 41_alu.md R98: no arithmetic instruction writes FL, and a CMP's result survives every instruction but the next CMP. -/
def Obligations.OnlyCmpWritesTheFlags : Prop :=
  ∀ (i : Instr) (s t : State), (∀ a b, i ≠ .cmp a b) → exec i s = .next t → t.fl = s.fl

/-! ### System, load and output -/

/-- HLT completes in every state: run becomes HALTED and nothing else changes, pc included (42_system_load_output.md section
1; pc by the spec's decision D8, log 8). -/
def Obligations.HltHaltsAndChangesNothingElse : Prop :=
  ∀ s : State, ∃ t, exec .hlt s = .next t ∧ t.run = .halted ∧ t.fault = s.fault ∧ SameRegsExcept [] s t ∧ t.pc = s.pc ∧
    t.fl = s.fl ∧ SameMemory s t ∧ t.out = s.out

/-- No instruction but HLT halts the core (10_state.md section 5). -/
def Obligations.OnlyHltHalts : Prop :=
  ∀ (i : Instr) (s t : State), s.run = .running → exec i s = .next t → t.run = .halted → i = .hlt

/-- LDI completes on every register and immediate: the register equals the immediate, pc + 3, nothing else changes
(42_system_load_output.md section 2). -/
def Obligations.LdiLoadsTheImmediate : Prop :=
  ∀ (r : Fin 8) (v : Byte) (s : State), ∃ t, exec (.ldi (regByte r) v) s = .next t ∧ t.reg r = v ∧
    SameRegsExcept [r] s t ∧ t.pc = s.pc + 3#9 ∧ t.fl = s.fl ∧ SameMemory s t ∧ t.out = s.out ∧ SameRun s t

/-- PRN completes on every register: its value is appended to the output, pc + 2, nothing else changes
(42_system_load_output.md section 3; the output as bytes is the spec's decision D13, log 16). -/
def Obligations.PrnAppendsTheRegister : Prop :=
  ∀ (r : Fin 8) (s : State), ∃ t, exec (.prn (regByte r)) s = .next t ∧ t.out = s.out ++ [s.reg r] ∧
    SameRegsExcept [] s t ∧ t.pc = s.pc + 2#9 ∧ t.fl = s.fl ∧ SameMemory s t ∧ SameRun s t

/-- No instruction but PRN changes the output, and the output only grows at its end (10_state.md section 5). -/
def Obligations.OutputOnlyGrowsByPrn : Prop :=
  ∀ (i : Instr) (s t : State), exec i s = .next t →
    t.out = s.out ∨ ∃ r : Fin 8, i = .prn (regByte r) ∧ t.out = s.out ++ [s.reg r]

/-- The host renders an output element as decimal digits whose value is the element, with no leading zero, and a newline
(10_state.md section 5; the spec's decision D13, log 16). -/
def Obligations.OutputIsRenderedInDecimal : Prop :=
  ∀ v : Byte, ∃ digits : List Char, renderByte v = digits ++ ['\n'] ∧ digits ≠ [] ∧
    (∀ c ∈ digits, c.isDigit = true) ∧ digits.foldl (fun n c => 10 * n + (c.toNat - '0'.toNat)) 0 = v.toNat ∧
    (digits.head? = some '0' → digits = ['0'])

/-! ### Stack -/

/-- PUSH completes on every register: SP goes down by 1 modulo 256, the byte at the new SP becomes the register's value
(for R7 itself the decremented SP), pc + 2, and nothing else changes (43_stack.md section 2; the wrap is the spec's
decision D5, log 10, and PUSH R7 D17, log 11). -/
def Obligations.PushStoresAtTheDecrementedSp : Prop :=
  ∀ (r : Fin 8) (s : State), Memory.wf s.mem = true → ∃ t, exec (.push (regByte r)) s = .next t ∧
    (t.reg 7).toNat = ((s.reg 7).toNat + 255) % 256 ∧
    Memory.read t.mem (t.reg 7).toNat = (if r = 7 then t.reg 7 else s.reg r) ∧
    SameRegsExcept [7] s t ∧ SameMemoryExcept s.decSp.stackAddr s t ∧ t.pc = s.pc + 2#9 ∧ t.fl = s.fl ∧
    t.out = s.out ∧ SameRun s t

/-- POP completes on every register: the register becomes the byte at the old SP, then SP goes up by 1 modulo 256 (POP R7
ends with the popped value plus 1), pc + 2, and nothing else changes (43_stack.md section 3; D5, log 10; D17, log 11). -/
def Obligations.PopLoadsFromSpThenIncrements : Prop :=
  ∀ (r : Fin 8) (s : State), ∃ t, exec (.pop (regByte r)) s = .next t ∧
    (r ≠ 7 → t.reg r = Memory.read s.mem (s.reg 7).toNat ∧ (t.reg 7).toNat = ((s.reg 7).toNat + 1) % 256) ∧
    (r = 7 → (t.reg 7).toNat = ((Memory.read s.mem (s.reg 7).toNat).toNat + 1) % 256) ∧
    SameRegsExcept [r, 7] s t ∧ SameMemory s t ∧ t.pc = s.pc + 2#9 ∧ t.fl = s.fl ∧ t.out = s.out ∧ SameRun s t

/-- The stack balance of a PUSH followed by a POP, neither naming R7: the popped register has the pushed register's value,
SP is back, at every SP including 0x00 (43_stack.md section 4, an inference the spec marks as its own). -/
def Obligations.PushThenPopBalances : Prop :=
  ∀ (r d : Fin 8) (s : State), r ≠ 7 → d ≠ 7 → Memory.wf s.mem = true →
    ∃ t, execAll [.push (regByte r), .pop (regByte d)] s = some t ∧ t.reg d = s.reg r ∧ t.reg 7 = s.reg 7 ∧
      SameRegsExcept [d] s t ∧ SameMemoryExcept s.decSp.stackAddr s t

/-- n pushes followed by n pops, none naming R7, n at most 256: SP is restored and the values come back in reverse order,
in every destination register that no later pop overwrites (43_stack.md section 4, an inference the spec marks as its
own; the 256 slots are distinct because SP wraps, D5, log 10). -/
def Obligations.PushesThenPopsReturnInReverseOrder : Prop :=
  ∀ (rs ds : List (Fin 8)) (s : State), rs.length = ds.length → rs.length ≤ 256 → 7 ∉ rs → 7 ∉ ds →
    Memory.wf s.mem = true →
    ∃ t, execAll (rs.map (fun r => Instr.push (regByte r)) ++ ds.map (fun d => Instr.pop (regByte d))) s = some t ∧
      t.reg 7 = s.reg 7 ∧
      ∀ k, k < ds.length → ds.getD k 0 ∉ ds.drop (k + 1) → t.reg (ds.getD k 0) = s.reg (rs.reverse.getD k 0)

/-! ### Control transfer -/

/-- CALL completes on every register: SP goes down by 1 modulo 256, the byte at the new SP becomes the address after the
CALL's operand (pc + 2, at every pc a fetch can succeed at), and pc becomes the register's value read after the push, so
that CALL R7 jumps to the decremented SP (44_control_transfer.md section 2; D5, log 10; D17, log 11). -/
def Obligations.CallPushesTheReturnAddressAndJumps : Prop :=
  ∀ (r : Fin 8) (s : State), Memory.wf s.mem = true → ∃ t, exec (.call (regByte r)) s = .next t ∧
    (t.reg 7).toNat = ((s.reg 7).toNat + 255) % 256 ∧
    (s.pc.toNat ≤ 253 → (Memory.read t.mem (t.reg 7).toNat).toNat = s.pc.toNat + 2) ∧
    t.pc.toNat = (if r = 7 then t.reg 7 else s.reg r).toNat ∧
    SameRegsExcept [7] s t ∧ SameMemoryExcept s.decSp.stackAddr s t ∧ t.fl = s.fl ∧ t.out = s.out ∧ SameRun s t

/-- RET completes in every state: pc becomes the byte at SP, SP goes up by 1 modulo 256, nothing else changes
(44_control_transfer.md section 3; D5, log 10). -/
def Obligations.RetPopsThePc : Prop :=
  ∀ s : State, ∃ t, exec .ret s = .next t ∧ t.pc.toNat = (Memory.read s.mem (s.reg 7).toNat).toNat ∧
    (t.reg 7).toNat = ((s.reg 7).toNat + 1) % 256 ∧ SameRegsExcept [7] s t ∧ SameMemory s t ∧ t.fl = s.fl ∧
    t.out = s.out ∧ SameRun s t

/-- A CALL, then a subroutine that leaves R7 and the return address's cell as the CALL left them, then RET: pc is the
address after the CALL's operand byte and SP is back (44_control_transfer.md section 3, an inference the spec marks as its
own). -/
def Obligations.RetReturnsBehindTheCall : Prop :=
  ∀ (r : Fin 8) (s u : State), Memory.wf s.mem = true → s.pc.toNat ≤ 253 →
    ∃ t, exec (.call (regByte r)) s = .next t ∧
      (u.reg 7 = t.reg 7 → Memory.read u.mem (t.reg 7).toNat = Memory.read t.mem (t.reg 7).toNat →
        ∃ v, exec .ret u = .next v ∧ v.pc.toNat = s.pc.toNat + 2 ∧ v.reg 7 = s.reg 7)

/-- JMP completes on every register: pc becomes its value, nothing else changes; a target of 254 or 255 does not fault here
(44_control_transfer.md sections 1 and 4). -/
def Obligations.JmpLoadsThePc : Prop :=
  ∀ (r : Fin 8) (s : State), ∃ t, exec (.jmp (regByte r)) s = .next t ∧ t.pc.toNat = (s.reg r).toNat ∧
    SameRegsExcept [] s t ∧ t.fl = s.fl ∧ SameMemory s t ∧ t.out = s.out ∧ SameRun s t

/-- JEQ: when bit 0 of FL is set, pc becomes the register's value and an operand byte of 8 or more faults; when it is clear,
pc + 2 whatever the operand byte is, because the register is not read. Nothing else changes (44_control_transfer.md
section 5; the unread register is the spec's decision D18, log 12). The bad-index clause rests on three more: the whole byte
as index D28 (log 13), FAULTED D9 (log 2), and that the fault changes nothing else D4 (log 9, unsafe; 60_exceptions.md
section 4). -/
def Obligations.JeqJumpsExactlyWhenEqual : Prop :=
  ∀ s : State,
    (s.fl.getLsbD 0 = true → ∀ r : Fin 8, ∃ t, exec (.jeq (regByte r)) s = .next t ∧ t.pc.toNat = (s.reg r).toNat ∧
      SameRegsExcept [] s t ∧ t.fl = s.fl ∧ SameMemory s t ∧ t.out = s.out ∧ SameRun s t) ∧
    (s.fl.getLsbD 0 = true → ∀ b : Byte, 8 ≤ b.toNat → exec (.jeq b) s = .next (faultedWith s (.outOfBoundsReg b))) ∧
    (s.fl.getLsbD 0 = false → ∀ b : Byte, ∃ t, exec (.jeq b) s = .next t ∧ t.pc = s.pc + 2#9 ∧
      SameRegsExcept [] s t ∧ t.fl = s.fl ∧ SameMemory s t ∧ t.out = s.out ∧ SameRun s t)

/-- JNE: the mirror of JEQ (44_control_transfer.md section 6; the unread register is the spec's decision D18, log 12). The
bad-index clause rests on three more: the whole byte as index D28 (log 13), FAULTED D9 (log 2), and that the fault changes
nothing else D4 (log 9, unsafe; 60_exceptions.md section 4). -/
def Obligations.JneJumpsExactlyWhenNotEqual : Prop :=
  ∀ s : State,
    (s.fl.getLsbD 0 = false → ∀ r : Fin 8, ∃ t, exec (.jne (regByte r)) s = .next t ∧ t.pc.toNat = (s.reg r).toNat ∧
      SameRegsExcept [] s t ∧ t.fl = s.fl ∧ SameMemory s t ∧ t.out = s.out ∧ SameRun s t) ∧
    (s.fl.getLsbD 0 = false → ∀ b : Byte, 8 ≤ b.toNat → exec (.jne b) s = .next (faultedWith s (.outOfBoundsReg b))) ∧
    (s.fl.getLsbD 0 = true → ∀ b : Byte, ∃ t, exec (.jne b) s = .next t ∧ t.pc = s.pc + 2#9 ∧
      SameRegsExcept [] s t ∧ t.fl = s.fl ∧ SameMemory s t ∧ t.out = s.out ∧ SameRun s t)

/-! ### Whole-machine frames -/

/-- An instruction changes no register but those the table of 10_state.md section 2 lists for it; registers 5 and 6 are no
exception, so nothing but an instruction that names them ever writes them. -/
def Obligations.OnlyListedRegistersChange : Prop :=
  ∀ (i : Instr) (s t : State) (r : Fin 8), exec i s = .next t → regByte r ∉ writtenRegisters i → t.reg r = s.reg r

/-- Only PUSH and CALL store, and only at the slot of the decremented SP (20_memory.md section 4, the table of accesses). -/
def Obligations.OnlyPushAndCallStore : Prop :=
  ∀ (i : Instr) (s t : State), exec i s = .next t →
    (∀ a, storedAddress s i = some a → SameMemoryExcept a s t) ∧ (storedAddress s i = none → SameMemory s t)

/-- The program counter moves as the opcode's fields say: when the sets-PC bit is clear and the instruction neither faults
nor halts, pc grows by operand count + 1, with no reduction modulo 256 (40_execution_loop.md section 5; the width is the
spec's decision D1, log 3). -/
def Obligations.AutoAdvanceFollowsTheOpcodeBits : Prop :=
  ∀ (i : Instr) (s t : State), s.run = .running → s.pc.toNat ≤ 253 → setsPc i.opcode = false → exec i s = .next t →
    t.run = .running → t.pc.toNat = s.pc.toNat + operandCount i.opcode + 1

/-- A byte stored by PUSH is what the very next fetch of that address reads: self-modifying code works
(20_memory.md section 5, an inference the spec marks as its own). -/
def Obligations.NextFetchSeesThePushedByte : Prop :=
  ∀ (r : Fin 8) (s : State), r ≠ 7 → Memory.wf s.mem = true → s.pc.toNat + 2 = s.decSp.stackAddr → s.pc.toNat ≤ 251 →
    ∃ t f, exec (.push (regByte r)) s = .next t ∧ fetch t = .ok f ∧ f.ir = s.reg r
end

