-- ==== Sys2Proof/Laws/Memory.lean ====
section
/-! SUPPORT. The laws of the memory array: reading after a write, and that every operation keeps the canonical form. -/

namespace Sys2Proof.Machine.Memory

/-- A write leaves every other address alone, in a list of any form. -/
theorem read_write_of_ne (m : Memory) {a c : Nat} (v : Byte) (h : c ≠ a) : read (write m a v) c = read m c := by
  induction m with
  | nil => simp only [write]; split <;> simp [read, h]
  | cons cell m ih =>
    obtain ⟨b, w⟩ := cell
    simp only [write]
    split
    · split <;> simp [read, h]
    · split
      · next e => subst e; split <;> simp [read, h]
      · simp [read, ih]

theorem wfFrom_cons (lo b : Nat) (w : Byte) (m : Memory) :
    wfFrom lo ((b, w) :: m) = true ↔ lo ≤ b ∧ b < 256 ∧ w ≠ unlisted ∧ wfFrom (b + 1) m = true := by
  have e : Config.memSize = 256 := rfl
  simp only [wfFrom, e, Bool.and_eq_true, decide_eq_true_eq, and_assoc]

/-- A canonical list that starts above an address does not list it. -/
theorem read_of_lt {m : Memory} {lo a : Nat} (h : wfFrom lo m = true) (ha : a < lo) : read m a = unlisted := by
  induction m generalizing lo with
  | nil => rfl
  | cons cell m ih =>
    obtain ⟨b, w⟩ := cell
    obtain ⟨hb, -, -, hm⟩ := (wfFrom_cons ..).1 h
    have : a ≠ b := by omega
    simp only [read, this, if_false]
    exact ih hm (by omega)

theorem wfFrom_mono {m : Memory} {lo hi : Nat} (h : wfFrom hi m = true) (le : lo ≤ hi) : wfFrom lo m = true := by
  cases m with
  | nil => rfl
  | cons cell m =>
    obtain ⟨b, w⟩ := cell
    obtain ⟨hb, h1, h2, h3⟩ := (wfFrom_cons ..).1 h
    exact (wfFrom_cons ..).2 ⟨by omega, h1, h2, h3⟩

/-- A write is read back at its own address. -/
theorem read_write_self {m : Memory} {lo : Nat} (h : wfFrom lo m = true) (a : Nat) (v : Byte) :
    read (write m a v) a = v := by
  induction m generalizing lo with
  | nil => simp only [write]; split <;> simp_all [read]
  | cons cell m ih =>
    obtain ⟨b, w⟩ := cell
    obtain ⟨-, -, -, hm⟩ := (wfFrom_cons ..).1 h
    simp only [write]
    split
    · next lt =>
      split
      · next e =>
        have : a ≠ b := by omega
        simp only [read, this, if_false, e]
        exact read_of_lt hm (by omega)
      · simp [read]
    · next nlt =>
      split
      · next e =>
        subst e
        split
        · next e => rw [e]; exact read_of_lt hm (by omega)
        · simp [read]
      · next ne => simp [read, ne, ih hm]

/-- A write inside the address space keeps the canonical form. -/
theorem wfFrom_write {m : Memory} {lo : Nat} (h : wfFrom lo m = true) {a : Nat} (lo_le : lo ≤ a) (lt : a < 256) (v : Byte) :
    wfFrom lo (write m a v) = true := by
  induction m generalizing lo with
  | nil =>
    simp only [write]
    split
    · rfl
    · next ne => exact (wfFrom_cons ..).2 ⟨lo_le, lt, ne, rfl⟩
  | cons cell m ih =>
    obtain ⟨b, w⟩ := cell
    obtain ⟨hb, h1, h2, hm⟩ := (wfFrom_cons ..).1 h
    simp only [write]
    split
    · next lt_b =>
      split
      · exact h
      · next ne => exact (wfFrom_cons ..).2 ⟨lo_le, lt, ne, (wfFrom_cons ..).2 ⟨by omega, h1, h2, hm⟩⟩
    · split
      · next e =>
        subst e
        split
        · exact wfFrom_mono hm (by omega)
        · next ne => exact (wfFrom_cons ..).2 ⟨hb, h1, ne, hm⟩
      · exact (wfFrom_cons ..).2 ⟨hb, h1, h2, ih hm (by omega)⟩

theorem wf_write {m : Memory} (h : wf m = true) {a : Nat} (lt : a < 256) (v : Byte) : wf (write m a v) = true :=
  wfFrom_write h (Nat.zero_le a) lt v

/-- Reading after a write, in one equation. -/
theorem read_write {m : Memory} (h : wf m = true) (a c : Nat) (v : Byte) :
    read (write m a v) c = if c = a then v else read m c := by
  split
  · next e => subst e; exact read_write_self h c v
  · next ne => exact read_write_of_ne m v ne

theorem wf_writeBytes {m : Memory} (h : wf m = true) {a : Nat} {vs : List Byte} (fits : a + vs.length ≤ 256) :
    wf (writeBytes m a vs) = true := by
  induction vs generalizing m a with
  | nil => exact h
  | cons v vs ih =>
    simp only [List.length_cons] at fits
    exact ih (wf_write h (by omega) v) (by omega)

/-- Reading after a run of bytes was written. -/
theorem read_writeBytes {m : Memory} (h : wf m = true) {a : Nat} {vs : List Byte} (fits : a + vs.length ≤ 256) (c : Nat) :
    read (writeBytes m a vs) c =
      if a ≤ c ∧ c < a + vs.length then vs.getD (c - a) unlisted else read m c := by
  induction vs generalizing m a with
  | nil =>
    have : ¬(a ≤ c ∧ c < a + ([] : List Byte).length) := by simp only [List.length_nil]; omega
    rw [if_neg this, writeBytes]
  | cons v vs ih =>
    simp only [List.length_cons] at fits
    simp only [writeBytes, List.length_cons]
    rw [ih (wf_write h (by omega) v) (by omega), read_write h]
    by_cases e : c = a
    · subst e
      have h1 : ¬(c + 1 ≤ c ∧ c < c + 1 + vs.length) := by omega
      have h2 : c ≤ c ∧ c < c + (vs.length + 1) := by omega
      rw [if_neg h1, if_pos rfl, if_pos h2, Nat.sub_self, List.getD_cons_zero]
    · by_cases hc : a + 1 ≤ c ∧ c < a + 1 + vs.length
      · have h2 : a ≤ c ∧ c < a + (vs.length + 1) := by omega
        obtain ⟨k, hk⟩ : ∃ k, c - a = k + 1 := ⟨c - a - 1, by omega⟩
        have hk' : c - (a + 1) = k := by omega
        rw [if_pos hc, if_pos h2, hk, hk', List.getD_cons_succ]
      · have h2 : ¬(a ≤ c ∧ c < a + (vs.length + 1)) := by omega
        rw [if_neg hc, if_neg h2, if_neg e]

end Sys2Proof.Machine.Memory
end

