-- ==== Sys2Proof/Laws/Interfaces.lean ====
section
/-! SUPPORT. The load port and the register check, said once. -/

namespace Sys2Proof.Machine

/-- Everything a load can do. -/
theorem load_ok {s t : State} {image : List Byte} (h : s.load image = .ok t) :
    image.length ≤ 256 ∧ t = s.setMem (Memory.writeBytes s.mem 0 image) := by
  unfold State.load at h
  split at h
  · next le => exact ⟨le, by cases h; rfl⟩
  · cases h

/-- A load keeps the canonical form of memory. -/
theorem wf_load {s t : State} {image : List Byte} (wf : Memory.wf s.mem = true) (h : s.load image = .ok t) :
    Memory.wf t.mem = true := by
  obtain ⟨le, rfl⟩ := load_ok h
  exact Memory.wf_writeBytes wf (by omega)

theorem validRegister_iff (r : Byte) : validRegister r = true ↔ r.toNat < 8 := decide_eq_true_iff

end Sys2Proof.Machine
end

