-- ==== Sys2Proof/Laws/State.lean ====
section
/-! SUPPORT. One lemma per field per update of the state, so that no proof unfolds a record update. -/

namespace Sys2Proof.Machine

variable (s : State) (i j : Fin 8) (v : Byte) (n : Nat) (c : FaultRecord)

/-! ### setReg -/

@[simp] theorem setReg_pc : (s.setReg i v).pc = s.pc := rfl
@[simp] theorem setReg_fl : (s.setReg i v).fl = s.fl := rfl
@[simp] theorem setReg_mem : (s.setReg i v).mem = s.mem := rfl
@[simp] theorem setReg_run : (s.setReg i v).run = s.run := rfl
@[simp] theorem setReg_fault : (s.setReg i v).fault = s.fault := rfl
@[simp] theorem setReg_out : (s.setReg i v).out = s.out := rfl

@[simp] theorem setReg_reg_self : (s.setReg i v).reg i = v := by
  simp [State.setReg, State.reg, Vector.get_eq_getElem]

theorem setReg_reg_of_ne (h : j ≠ i) : (s.setReg i v).reg j = s.reg j := by
  have : i.val ≠ j.val := fun e => h (Fin.ext e.symm)
  simp [State.setReg, State.reg, Vector.get_eq_getElem, this]

theorem setReg_reg : (s.setReg i v).reg j = if j = i then v else s.reg j := by
  split
  · next h => rw [h, setReg_reg_self]
  · next h => exact setReg_reg_of_ne s i j v h

/-! ### advance -/

@[simp] theorem advance_pc : (s.advance n).pc = s.pc + BitVec.ofNat 9 n := rfl
@[simp] theorem advance_reg : (s.advance n).reg i = s.reg i := rfl
@[simp] theorem advance_fl : (s.advance n).fl = s.fl := rfl
@[simp] theorem advance_mem : (s.advance n).mem = s.mem := rfl
@[simp] theorem advance_run : (s.advance n).run = s.run := rfl
@[simp] theorem advance_fault : (s.advance n).fault = s.fault := rfl
@[simp] theorem advance_out : (s.advance n).out = s.out := rfl

/-! ### jump -/

@[simp] theorem jump_pc : (s.jump v).pc = zext9 v := rfl
@[simp] theorem jump_reg : (s.jump v).reg i = s.reg i := rfl
@[simp] theorem jump_fl : (s.jump v).fl = s.fl := rfl
@[simp] theorem jump_mem : (s.jump v).mem = s.mem := rfl
@[simp] theorem jump_run : (s.jump v).run = s.run := rfl
@[simp] theorem jump_fault : (s.jump v).fault = s.fault := rfl
@[simp] theorem jump_out : (s.jump v).out = s.out := rfl

/-! ### decSp and incSp -/

theorem sp_eq_reg : s.sp = s.reg spIndex := rfl

@[simp] theorem decSp_pc : s.decSp.pc = s.pc := rfl
@[simp] theorem decSp_fl : s.decSp.fl = s.fl := rfl
@[simp] theorem decSp_mem : s.decSp.mem = s.mem := rfl
@[simp] theorem decSp_run : s.decSp.run = s.run := rfl
@[simp] theorem decSp_fault : s.decSp.fault = s.fault := rfl
@[simp] theorem decSp_out : s.decSp.out = s.out := rfl
@[simp] theorem decSp_reg_sp : s.decSp.reg spIndex = s.reg spIndex - 1#8 := setReg_reg_self ..
theorem decSp_reg_of_ne (h : j ≠ spIndex) : s.decSp.reg j = s.reg j := setReg_reg_of_ne _ _ _ _ h

@[simp] theorem incSp_pc : s.incSp.pc = s.pc := rfl
@[simp] theorem incSp_fl : s.incSp.fl = s.fl := rfl
@[simp] theorem incSp_mem : s.incSp.mem = s.mem := rfl
@[simp] theorem incSp_run : s.incSp.run = s.run := rfl
@[simp] theorem incSp_fault : s.incSp.fault = s.fault := rfl
@[simp] theorem incSp_out : s.incSp.out = s.out := rfl
@[simp] theorem incSp_reg_sp : s.incSp.reg spIndex = s.reg spIndex + 1#8 := setReg_reg_self ..
theorem incSp_reg_of_ne (h : j ≠ spIndex) : s.incSp.reg j = s.reg j := setReg_reg_of_ne _ _ _ _ h

/-! ### takeFault -/

@[simp] theorem takeFault_reg : (s.takeFault c).reg i = s.reg i := rfl
@[simp] theorem takeFault_pc : (s.takeFault c).pc = s.pc := rfl
@[simp] theorem takeFault_fl : (s.takeFault c).fl = s.fl := rfl
@[simp] theorem takeFault_mem : (s.takeFault c).mem = s.mem := rfl
@[simp] theorem takeFault_run : (s.takeFault c).run = .faulted := rfl
@[simp] theorem takeFault_fault : (s.takeFault c).fault = some c := rfl
@[simp] theorem takeFault_out : (s.takeFault c).out = s.out := rfl

/-! ### setMem -/

variable (m : Memory)

@[simp] theorem setMem_reg : (s.setMem m).reg i = s.reg i := rfl
@[simp] theorem setMem_pc : (s.setMem m).pc = s.pc := rfl
@[simp] theorem setMem_fl : (s.setMem m).fl = s.fl := rfl
@[simp] theorem setMem_mem : (s.setMem m).mem = m := rfl
@[simp] theorem setMem_run : (s.setMem m).run = s.run := rfl
@[simp] theorem setMem_fault : (s.setMem m).fault = s.fault := rfl
@[simp] theorem setMem_out : (s.setMem m).out = s.out := rfl

/-! ### setFl -/

@[simp] theorem setFl_reg : (s.setFl v).reg i = s.reg i := rfl
@[simp] theorem setFl_pc : (s.setFl v).pc = s.pc := rfl
@[simp] theorem setFl_fl : (s.setFl v).fl = v := rfl
@[simp] theorem setFl_mem : (s.setFl v).mem = s.mem := rfl
@[simp] theorem setFl_run : (s.setFl v).run = s.run := rfl
@[simp] theorem setFl_fault : (s.setFl v).fault = s.fault := rfl
@[simp] theorem setFl_out : (s.setFl v).out = s.out := rfl

/-! ### emit -/

@[simp] theorem emit_reg : (s.emit v).reg i = s.reg i := rfl
@[simp] theorem emit_pc : (s.emit v).pc = s.pc := rfl
@[simp] theorem emit_fl : (s.emit v).fl = s.fl := rfl
@[simp] theorem emit_mem : (s.emit v).mem = s.mem := rfl
@[simp] theorem emit_run : (s.emit v).run = s.run := rfl
@[simp] theorem emit_fault : (s.emit v).fault = s.fault := rfl
@[simp] theorem emit_out : (s.emit v).out = s.out ++ [v] := rfl

/-! ### halt -/

@[simp] theorem halt_reg : (s.halt).reg i = s.reg i := rfl
@[simp] theorem halt_pc : (s.halt).pc = s.pc := rfl
@[simp] theorem halt_fl : (s.halt).fl = s.fl := rfl
@[simp] theorem halt_mem : (s.halt).mem = s.mem := rfl
@[simp] theorem halt_run : (s.halt).run = .halted := rfl
@[simp] theorem halt_fault : (s.halt).fault = s.fault := rfl
@[simp] theorem halt_out : (s.halt).out = s.out := rfl

/-! ### the target of a jump -/

@[simp] theorem zext9_toNat : (zext9 v).toNat = v.toNat := by
  have := v.isLt
  simp [zext9]
  omega

end Sys2Proof.Machine
end

