-- ==== Sys2Proof/Laws/Ops.lean ====
section
/-! SUPPORT. One lemma per shared operation that says everything it can do; proofs cite these instead of unfolding. -/

namespace Sys2Proof.Machine

/-! ### Register operands -/

theorem regByte_toNat (i : Fin 8) : (regByte i).toNat = i.val := by
  have := i.isLt
  simp [regByte]
  omega

@[simp] theorem regIndex_regByte (i : Fin 8) : regIndex (regByte i) = .ok i := by
  simp [regIndex, regByte_toNat]

theorem regIndex_of_ge {b : Byte} (h : 8 ≤ b.toNat) : regIndex b = .error (.outOfBoundsReg b) := by
  have : ¬b.toNat < 8 := by omega
  simp [regIndex, this]

/-- A byte names a register, or is 8 or more. -/
theorem regByte_cases (b : Byte) : (∃ i, b = regByte i) ∨ 8 ≤ b.toNat := by
  by_cases h : b.toNat < 8
  · exact .inl ⟨⟨b.toNat, h⟩, by simp [regByte]⟩
  · exact .inr (by omega)

theorem regByte_injective {i j : Fin 8} (h : regByte i = regByte j) : i = j := by
  have := congrArg BitVec.toNat h
  rw [regByte_toNat, regByte_toNat] at this
  exact Fin.ext this

@[simp] theorem readReg_regByte (s : State) (i : Fin 8) : readReg s (regByte i) = .ok (s.reg i) := by
  simp only [readReg, regIndex_regByte]; rfl

theorem readReg_of_ge {s : State} {b : Byte} (h : 8 ≤ b.toNat) : readReg s b = .error (.outOfBoundsReg b) := by
  simp only [readReg, regIndex_of_ge h]; rfl

@[simp] theorem writeReg_regByte (s : State) (i : Fin 8) (v : Byte) : writeReg s (regByte i) v = .ok (s.setReg i v) := by
  simp only [writeReg, regIndex_regByte]; rfl

theorem writeReg_of_ge {s : State} {b v : Byte} (h : 8 ≤ b.toNat) : writeReg s b v = .error (.outOfBoundsReg b) := by
  simp only [writeReg, regIndex_of_ge h]; rfl

@[simp] theorem readRegPair_regByte (s : State) (i j : Fin 8) :
    readRegPair s (regByte i) (regByte j) = .ok (s.reg i, s.reg j) := by
  simp only [readRegPair, readReg_regByte]; rfl

theorem readRegPair_of_ge_left {s : State} {a b : Byte} (h : 8 ≤ a.toNat) :
    readRegPair s a b = .error (.outOfBoundsReg a) := by
  simp only [readRegPair, readReg_of_ge h]; rfl

theorem readRegPair_of_ge_right {s : State} {i : Fin 8} {b : Byte} (h : 8 ≤ b.toNat) :
    readRegPair s (regByte i) b = .error (.outOfBoundsReg b) := by
  simp only [readRegPair, readReg_regByte, readReg_of_ge h]; rfl

/-! ### Memory accesses -/

theorem memRead_of_lt {s : State} {a : Nat} (h : a < 256) : memRead s a = .ok (Memory.read s.mem a) := by
  simp [memRead, Config.memSize, h]

theorem memRead_of_ge {s : State} {a : Nat} (h : 256 ≤ a) : memRead s a = .error (.outOfBoundsMem a) := by
  have : ¬a < 256 := by omega
  simp [memRead, Config.memSize, this]

theorem memWrite_of_lt {s : State} {a : Nat} (h : a < 256) (v : Byte) :
    memWrite s a v = .ok (s.setMem (Memory.write s.mem a v)) := by
  simp [memWrite, Config.memSize, h]

theorem memWrite_of_ge {s : State} {a : Nat} (h : 256 ≤ a) (v : Byte) :
    memWrite s a v = .error (.outOfBoundsMem a) := by
  have : ¬a < 256 := by omega
  simp [memWrite, Config.memSize, this]

/-- A write through the access primitive keeps the canonical form. -/
theorem wf_memWrite {s t : State} {a : Nat} {v : Byte} (h : Memory.wf s.mem = true) (e : memWrite s a v = .ok t) :
    Memory.wf t.mem = true := by
  rcases Nat.lt_or_ge a 256 with lt | ge
  · rw [memWrite_of_lt lt] at e; cases e; exact Memory.wf_write h lt v
  · rw [memWrite_of_ge ge] at e; cases e

/-- Memory after reset is canonical. -/
theorem wf_reset : Memory.wf State.reset.mem = true := rfl

/-- A stack address is always in range (20_memory.md R45). -/
theorem stackAddr_lt (s : State) : s.stackAddr < 256 := s.sp.isLt

@[simp] theorem loadTop_eq (s : State) : loadTop s = .ok (Memory.read s.mem s.stackAddr) :=
  memRead_of_lt (stackAddr_lt s)

@[simp] theorem storeTop_eq (s : State) (v : Byte) :
    storeTop s v = .ok (s.setMem (Memory.write s.mem s.stackAddr v)) :=
  memWrite_of_lt (stackAddr_lt s) v

/-! ### Ending a step -/

@[simp] theorem commit_ok (s t : State) : commit s (.ok t) = .next t := rfl

@[simp] theorem commit_error (s : State) (c : FaultRecord) : commit s (.error c) = .next (s.takeFault c) := rfl

/-- Everything commit can do. -/
theorem commit_next {s t : State} {r : Raises State} (h : commit s r = .next t) :
    r = .ok t ∨ ∃ c, r = .error c ∧ t = s.takeFault c := by
  cases r with
  | ok u => exact .inl (by simpa using h)
  | error c => exact .inr ⟨c, rfl, by simpa using h.symm⟩

/-! ### Arithmetic -/

/-- What an arithmetic instruction makes on two registers. -/
theorem arithmetic_regByte (op : Byte → Byte → Raises Byte) (a b : Fin 8) (s : State) :
    arithmetic op (regByte a) (regByte b) s =
      (op (s.reg a) (s.reg b)).map (fun r => (s.setReg a r).advance 3) := by
  simp only [arithmetic, readRegPair_regByte]
  cases h : op (s.reg a) (s.reg b) <;> simp [bind, Except.bind, Except.map, pure, Except.pure, h]

theorem arithmetic_of_ge_left {op : Byte → Byte → Raises Byte} {a b : Byte} {s : State} (h : 8 ≤ a.toNat) :
    arithmetic op a b s = .error (.outOfBoundsReg a) := by
  simp only [arithmetic, readRegPair_of_ge_left h]; rfl

theorem arithmetic_of_ge_right {op : Byte → Byte → Raises Byte} {a : Fin 8} {b : Byte} {s : State} (h : 8 ≤ b.toNat) :
    arithmetic op (regByte a) b s = .error (.outOfBoundsReg b) := by
  simp only [arithmetic, readRegPair_of_ge_right h]; rfl

/-! ### Fetch -/

/-- A fetch succeeds when pc is at most 253 (40_execution_loop.md R78), with the three bytes in memory. -/
theorem fetch_of_le {s : State} (h : s.pc.toNat ≤ 253) :
    fetch s = .ok ⟨Memory.read s.mem s.pc.toNat, Memory.read s.mem (s.pc.toNat + 1), Memory.read s.mem (s.pc.toNat + 2)⟩ := by
  simp only [fetch, memRead_of_lt (show s.pc.toNat < 256 by omega), memRead_of_lt (show s.pc.toNat + 1 < 256 by omega),
    memRead_of_lt (show s.pc.toNat + 2 < 256 by omega)]
  rfl

/-- A fetch at 254, 255 or above fails at the first address above 255. -/
theorem fetch_of_ge {s : State} (h : 254 ≤ s.pc.toNat) :
    fetch s = .error (.outOfBoundsMem (max s.pc.toNat 256)) := by
  rcases Nat.lt_or_ge s.pc.toNat 255 with h1 | h1
  · have e : s.pc.toNat = 254 := by omega
    simp only [fetch, e, memRead_of_lt (show 254 < 256 by omega), memRead_of_lt (show 254 + 1 < 256 by omega),
      memRead_of_ge (show 256 ≤ 254 + 2 by omega)]
    rfl
  · rcases Nat.lt_or_ge s.pc.toNat 256 with h2 | h2
    · have e : s.pc.toNat = 255 := by omega
      simp only [fetch, e, memRead_of_lt (show 255 < 256 by omega), memRead_of_ge (show 256 ≤ 255 + 1 by omega)]
      rfl
    · simp only [fetch, memRead_of_ge h2, Nat.max_eq_left h2]
      rfl

end Sys2Proof.Machine
end

