-- ==== Sys2Proof/Laws/PerInstr.lean ====
section
/-! SUPPORT. Statements about every instruction as syntax, one lemma per constructor (LAWS.json). OpcodeFields is
30_encoding.md R59: the fields N, A, C of the opcode byte agree with the instruction. -/

namespace Sys2Proof.Laws.OpcodeFields

/-- The instructions executed by the ALU. -/
def aluClass : Instr → Bool
  | .add _ _ => true
  | .sub _ _ => true
  | .mul _ _ => true
  | .div _ _ => true
  | .cmp _ _ => true
  | .hlt => false
  | .ret => false
  | .push _ => false
  | .pop _ => false
  | .prn _ => false
  | .call _ => false
  | .jmp _ => false
  | .jeq _ => false
  | .jne _ => false
  | .ldi _ _ => false

/-- The instructions whose handler writes pc itself. -/
def setsPcClass : Instr → Bool
  | .ret => true
  | .call _ => true
  | .jmp _ => true
  | .jeq _ => true
  | .jne _ => true
  | .hlt => false
  | .push _ => false
  | .pop _ => false
  | .prn _ => false
  | .ldi _ _ => false
  | .add _ _ => false
  | .sub _ _ => false
  | .mul _ _ => false
  | .div _ _ => false
  | .cmp _ _ => false

/-- N is the number of operand bytes, A marks the ALU class, C marks the instructions that set pc. -/
def Statement (i : Instr) : Prop :=
  operandCount i.opcode = i.operands.length ∧ isAlu i.opcode = aluClass i ∧ setsPc i.opcode = setsPcClass i

/-- The statement follows from the opcode byte and three facts about it. -/
theorem of_fields {i : Instr} (op : Byte) (n : Nat) (a c : Bool) (h : i.opcode = op) (hn : i.operands.length = n)
    (ha : aluClass i = a) (hc : setsPcClass i = c) (fields : operandCount op = n ∧ isAlu op = a ∧ setsPc op = c) :
    Statement i := by
  subst h hn ha hc; exact fields

theorem hlt : Statement .hlt :=
  of_fields 0b00000001#8 0 false false rfl rfl rfl rfl (by decide)
theorem ret : Statement .ret :=
  of_fields 0b00010001#8 0 false true rfl rfl rfl rfl (by decide)
theorem push (r : Byte) : Statement (.push r) :=
  of_fields 0b01000101#8 1 false false rfl rfl rfl rfl (by decide)
theorem pop (r : Byte) : Statement (.pop r) :=
  of_fields 0b01000110#8 1 false false rfl rfl rfl rfl (by decide)
theorem prn (r : Byte) : Statement (.prn r) :=
  of_fields 0b01000111#8 1 false false rfl rfl rfl rfl (by decide)
theorem call (r : Byte) : Statement (.call r) :=
  of_fields 0b01010000#8 1 false true rfl rfl rfl rfl (by decide)
theorem jmp (r : Byte) : Statement (.jmp r) :=
  of_fields 0b01010100#8 1 false true rfl rfl rfl rfl (by decide)
theorem jeq (r : Byte) : Statement (.jeq r) :=
  of_fields 0b01010101#8 1 false true rfl rfl rfl rfl (by decide)
theorem jne (r : Byte) : Statement (.jne r) :=
  of_fields 0b01010110#8 1 false true rfl rfl rfl rfl (by decide)
theorem ldi (r v : Byte) : Statement (.ldi r v) :=
  of_fields 0b10000010#8 2 false false rfl rfl rfl rfl (by decide)
theorem add (a b : Byte) : Statement (.add a b) :=
  of_fields 0b10100000#8 2 true false rfl rfl rfl rfl (by decide)
theorem sub (a b : Byte) : Statement (.sub a b) :=
  of_fields 0b10100001#8 2 true false rfl rfl rfl rfl (by decide)
theorem mul (a b : Byte) : Statement (.mul a b) :=
  of_fields 0b10100010#8 2 true false rfl rfl rfl rfl (by decide)
theorem div (a b : Byte) : Statement (.div a b) :=
  of_fields 0b10100011#8 2 true false rfl rfl rfl rfl (by decide)
theorem cmp (a b : Byte) : Statement (.cmp a b) :=
  of_fields 0b10100111#8 2 true false rfl rfl rfl rfl (by decide)

end Sys2Proof.Laws.OpcodeFields
end

