-- ==== Sys2Proof/Laws/Step.lean ====
section
/-! SUPPORT. Everything a step can do, said once. -/

namespace Sys2Proof.Machine

/-- A step that answers a next state started in a running core, and is one of: a failed fetch, an opcode that is no
instruction, or the meaning of the instruction that the three bytes at pc decode to. -/
theorem step_next {s t : State} (h : step s = .next t) :
    s.run = .running ∧
      ((254 ≤ s.pc.toNat ∧ t = s.takeFault (.outOfBoundsMem (max s.pc.toNat 256))) ∨
       (s.pc.toNat ≤ 253 ∧ ∃ ir opa opb,
          ir = Memory.read s.mem s.pc.toNat ∧ opa = Memory.read s.mem (s.pc.toNat + 1) ∧
          opb = Memory.read s.mem (s.pc.toNat + 2) ∧
          ((∃ op, decode ir opa opb = .error (.unsupportedOperation op) ∧ t = s.takeFault (.unsupportedOperation op)) ∨
           ∃ i, decode ir opa opb = .ok i ∧ exec i s = .next t))) := by
  unfold step at h
  split at h
  · cases h
  · cases h
  · next run =>
    refine ⟨run, ?_⟩
    rcases Nat.lt_or_ge 253 s.pc.toNat with hi | lo
    · rw [fetch_of_ge hi] at h
      exact .inl ⟨hi, by simpa [raise] using h.symm⟩
    · rw [fetch_of_le lo] at h
      refine .inr ⟨lo, _, _, _, rfl, rfl, rfl, ?_⟩
      simp only at h
      split at h
      · next op hd => exact .inl ⟨op, hd, by simpa [raise] using h.symm⟩
      · next i hd => exact .inr ⟨i, hd, h⟩

end Sys2Proof.Machine
end

