-- ==== Sys2Proof/Machine/Assembly.lean ====
section
/-! DEFINITION. The assembly notation of 30_encoding.md R60, R61 (the spec's decision D21, log 23): how an instruction is written
down, numbers in decimal. No part of the hardware reads it. -/

namespace Sys2Proof.Machine

/-- A number 0 to 255 in decimal, without leading zeros. -/
def decimal (v : Byte) : List Char := Nat.toDigits 10 v.toNat

/-- `Rr`: R and the decimal register number. -/
def registerName (r : Byte) : List Char := 'R' :: decimal r

/-- `MNEMONIC Rr`. -/
def oneRegister (mnemonic : List Char) (r : Byte) : List Char := mnemonic ++ ' ' :: registerName r

/-- `MNEMONIC Ra,Rb`. -/
def twoRegisters (mnemonic : List Char) (a b : Byte) : List Char := oneRegister mnemonic a ++ ',' :: registerName b

/-- An instruction in assembly notation, by the four forms of R60's table; one line stands for one instruction (R61). -/
def assembly : Instr → List Char
  | .hlt => ['H', 'L', 'T']
  | .ret => ['R', 'E', 'T']
  | .push r => oneRegister ['P', 'U', 'S', 'H'] r
  | .pop r => oneRegister ['P', 'O', 'P'] r
  | .prn r => oneRegister ['P', 'R', 'N'] r
  | .call r => oneRegister ['C', 'A', 'L', 'L'] r
  | .jmp r => oneRegister ['J', 'M', 'P'] r
  | .jeq r => oneRegister ['J', 'E', 'Q'] r
  | .jne r => oneRegister ['J', 'N', 'E'] r
  | .ldi r v => oneRegister ['L', 'D', 'I'] r ++ ',' :: decimal v
  | .add a b => twoRegisters ['A', 'D', 'D'] a b
  | .sub a b => twoRegisters ['S', 'U', 'B'] a b
  | .mul a b => twoRegisters ['M', 'U', 'L'] a b
  | .div a b => twoRegisters ['D', 'I', 'V'] a b
  | .cmp a b => twoRegisters ['C', 'M', 'P'] a b

end Sys2Proof.Machine
end

