-- ==== Sys2Proof/Tests/Slice0.lean ====
section
/-! SUPPORT. Tests of the model and the witnesses of the statements' hypotheses. Expected results are those of
95_test_vectors.md (named in each group) or follow from a rule's own example; none was read off the model. -/

namespace Sys2Proof.Machine.Tests

/-- s with bytes in memory from pc on, and that pc. -/
def place (s : State) (pc : Nat) (bytes : List Byte) : State :=
  { s with mem := Memory.writeBytes s.mem pc bytes, pc := BitVec.ofNat 9 pc }

/-- The reset state with R0 and R1 set: the registers most vectors use. -/
def regs01 (v0 v1 : Byte) : State := (State.reset.setReg 0 v0).setReg 1 v1

/-- The state after one step, if there is one. -/
def after (s : State) : Option State := nextState? (step s)

/-- An image of n bytes. -/
def image (n : Nat) : List Byte := List.replicate n 1#8

theorem image_length (n : Nat) : (image n).length = n := List.length_replicate

theorem image_loads (n : Nat) (h : n ≤ 256) : ∃ t, State.reset.load (image n) = .ok t :=
  ⟨_, if_pos (by rw [image_length]; exact h)⟩

/-! ### Well-formedness: each check with an ill-formed term -/

theorem test_wellFormed_refuses_index_8 :
    [Instr.push 8#8, .pop 8#8, .prn 8#8, .call 8#8, .jmp 8#8, .jeq 8#8, .jne 8#8, .ldi 8#8 0#8, .add 8#8 0#8, .add 0#8 8#8,
      .sub 8#8 0#8, .sub 0#8 8#8, .mul 8#8 0#8, .mul 0#8 8#8, .div 8#8 0#8, .div 0#8 8#8, .cmp 8#8 0#8,
      .cmp 0#8 8#8].map Instr.wellFormed = List.replicate 18 false := by decide

theorem test_wellFormed_accepts_index_7 :
    [Instr.hlt, .ret, .push 7#8, .pop 7#8, .prn 7#8, .call 7#8, .jmp 7#8, .jeq 7#8, .jne 7#8, .ldi 7#8 255#8, .add 7#8 7#8,
      .sub 7#8 7#8, .mul 7#8 7#8, .div 7#8 7#8, .cmp 7#8 7#8].map Instr.wellFormed = List.replicate 15 true := by decide

/-! ### Decoding: every constructor's word, written out from 30_encoding.md R52, R54 (byte 0 is the low byte) -/

theorem test_decode_format_Z :
    decodeTableWord 8 0b00000001 = some .hlt ∧ decodeTableWord 8 0b00010001 = some .ret := by decide

theorem test_decode_format_R :
    decodeTableWord 16 0b00000111_01000101 = some (.push 7#8) ∧ decodeTableWord 16 0b00000001_01000110 = some (.pop 1#8) ∧
    decodeTableWord 16 0b00000010_01000111 = some (.prn 2#8) ∧ decodeTableWord 16 0b00000011_01010000 = some (.call 3#8) ∧
    decodeTableWord 16 0b00000100_01010100 = some (.jmp 4#8) ∧ decodeTableWord 16 0b00000101_01010101 = some (.jeq 5#8) ∧
    decodeTableWord 16 0b11111111_01010110 = some (.jne 255#8) := by decide

theorem test_decode_format_RI :
    decodeTableWord 24 0b00001000_00000000_10000010 = some (.ldi 0#8 8#8) ∧
    decodeTableWord 24 0b10000000_00000111_10000010 = some (.ldi 7#8 128#8) := by decide

theorem test_decode_format_RR :
    decodeTableWord 24 0b00000001_00000010_10100000 = some (.add 2#8 1#8) ∧
    decodeTableWord 24 0b00000001_00000010_10100001 = some (.sub 2#8 1#8) ∧
    decodeTableWord 24 0b00000001_00000010_10100010 = some (.mul 2#8 1#8) ∧
    decodeTableWord 24 0b00000001_00000010_10100011 = some (.div 2#8 1#8) ∧
    decodeTableWord 24 0b00000001_00000010_10100111 = some (.cmp 2#8 1#8) := by decide

/-- The rejected bytes of vector table V1. -/
theorem test_decode_rejects :
    [0x00, 0x02, 0x10, 0x21, 0x44, 0x48, 0x51, 0x52, 0x53, 0x57, 0x65, 0x83, 0xA4, 0xA5, 0xA6, 0xA8, 0xB0, 0xC1, 0xFF].map
      (decodeTableWord 24) = List.replicate 19 none := by decide

theorem test_encode_bytes :
    encode (.ldi 0#8 8#8) = [0b10000010#8, 0b00000000#8, 0b00001000#8] ∧ encode (.prn 0#8) = [0b01000111#8, 0b00000000#8] ∧
    encode .hlt = [0b00000001#8] ∧ encode (.add 2#8 1#8) = [0b10100000#8, 2#8, 1#8] := by decide

/-! ### One step of each instruction (vectors V2 to V5) -/

theorem test_add_wraps :
    (after (place (regs01 200 100) 0 [0xA0, 0, 1])).map (fun t => (t.reg 0, t.reg 1, t.pc, t.fl)) = some (44, 100, 3, 0) := by
  decide

theorem test_add_same_register_doubles :
    (after (place (State.reset.setReg 2 200) 0 [0xA0, 2, 2])).map (·.reg 2) = some 144 := by decide

theorem test_sub_wraps_below_zero :
    (after (place (regs01 3 5) 0 [0xA1, 0, 1])).map (fun t => (t.reg 0, t.reg 1, t.pc)) = some (254, 5, 3) := by decide

theorem test_sub_clears_without_flag :
    (after (place (State.reset.setReg 4 77) 0 [0xA1, 4, 4])).map (fun t => (t.reg 4, t.fl)) = some (0, 0) := by decide

theorem test_mul_keeps_the_low_byte :
    (after (place (regs01 255 255) 0 [0xA2, 0, 1])).map (fun t => (t.reg 0, t.reg 1, t.pc)) = some (1, 255, 3) := by decide

theorem test_div_is_unsigned :
    (after (place (regs01 1 255) 0 [0xA3, 0, 1])).map (fun t => (t.reg 0, t.pc)) = some (0, 3) ∧
    (after (place (regs01 200 3) 0 [0xA3, 0, 1])).map (·.reg 0) = some 66 := by decide

theorem test_div_by_zero_faults_at_its_address :
    (after (place (regs01 5 0) 3 [0xA3, 0, 1])).map (fun t => (t.run, t.fault, t.reg 0, t.pc)) =
      some (.faulted, some (.divisionByZero 3), 5, 3) := by decide

theorem test_cmp_is_unsigned :
    (after (place (regs01 255 1) 0 [0xA7, 0, 1])).map (·.fl) = some 2 ∧
    (after (place (regs01 5 9) 0 [0xA7, 0, 1])).map (fun t => (t.fl, t.pc)) = some (4, 3) := by decide

theorem test_cmp_clears_the_old_flags :
    (after (place ((regs01 5 5).setFl 4) 0 [0xA7, 0, 1])).map (·.fl) = some 1 := by decide

theorem test_hlt_keeps_pc :
    (after (place State.reset 6 [0x01, 0xFF, 0xFF])).map (fun t => (t.run, t.pc, t.fault)) = some (.halted, 6, none) := by
  decide

theorem test_ldi_loads :
    (after (place State.reset 0 [0x82, 7, 0x80])).map (fun t => (t.reg 7, t.pc)) = some (0x80, 3) := by decide

theorem test_ldi_bad_index :
    (after (place State.reset 0 [0x82, 8, 1])).map (fun t => (t.fault, t.pc, t.regs)) =
      some (some (.outOfBoundsReg 8), 0, State.reset.regs) := by decide

theorem test_prn_appends :
    (after (place { State.reset with out := [3] } 0 [0x47, 7])).map (fun t => (t.out, t.pc)) = some ([3, 244], 2) := by decide

theorem test_push_wraps_sp :
    (after (place ((State.reset.setReg 7 0).setReg 1 7) 0 [0x45, 1])).map
      (fun t => (t.reg 7, Memory.read t.mem 255, t.pc)) = some (255, 7, 2) := by decide

theorem test_push_r7_stores_the_new_sp :
    (after (place State.reset 0 [0x45, 7])).map (fun t => (t.reg 7, Memory.read t.mem 0xF3)) = some (0xF3, 0xF3) := by decide

theorem test_pop_wraps_sp :
    (after (place ((State.reset.setReg 7 255).setMem [(255, 9)]) 0 [0x46, 2])).map
      (fun t => (t.reg 2, t.reg 7, Memory.read t.mem 255, t.pc)) = some (9, 0, 9, 2) := by decide

theorem test_pop_r7_loads_then_increments :
    (after (place ((State.reset.setReg 7 0xF3).setMem [(0xF3, 0x80)]) 0 [0x46, 7])).map (·.reg 7) = some 0x81 := by decide

theorem test_call_pushes_the_return_address :
    (after (place (State.reset.setReg 1 0x20) 6 [0x50, 1])).map (fun t => (t.reg 7, Memory.read t.mem 0xF3, t.pc)) =
      some (0xF3, 8, 0x20) := by decide

theorem test_call_r7_jumps_to_the_new_sp :
    (after (place State.reset 0 [0x50, 7])).map (fun t => (t.reg 7, Memory.read t.mem 0xF3, t.pc)) = some (0xF3, 2, 0xF3) := by
  decide

theorem test_ret_pops_the_pc :
    (after (place ((State.reset.setReg 7 0xFF).setMem [(0xFF, 0x40)]) 0 [0x11])).map (fun t => (t.pc, t.reg 7)) =
      some (0x40, 0) := by decide

theorem test_jmp_to_254 :
    (after (place (State.reset.setReg 2 0xFE) 0 [0x54, 2])).map (fun t => (t.pc, t.run)) = some (254, .running) := by decide

theorem test_jeq_taken_and_not_taken :
    (after (place ((State.reset.setReg 2 0x30).setFl 1) 9 [0x55, 2])).map (·.pc) = some 0x30 ∧
    (after (place ((State.reset.setReg 2 0x30).setFl 4) 9 [0x55, 2])).map (·.pc) = some 11 := by decide

theorem test_jeq_bad_index_only_when_taken :
    (after (place (State.reset.setFl 1) 9 [0x55, 8])).map (·.fault) = some (some (.outOfBoundsReg 8)) ∧
    (after (place State.reset 9 [0x55, 8])).map (fun t => (t.fault, t.pc)) = some (none, 11) := by decide

theorem test_jne_taken_and_not_taken :
    (after (place (State.reset.setReg 3 0x12) 20 [0x56, 3])).map (·.pc) = some 0x12 ∧
    (after (place ((State.reset.setReg 3 0x12).setFl 1) 20 [0x56, 3])).map (·.pc) = some 22 := by decide

theorem test_jne_bad_index_only_when_taken :
    (after (place State.reset 20 [0x56, 9])).map (·.fault) = some (some (.outOfBoundsReg 9)) ∧
    (after (place (State.reset.setFl 1) 20 [0x56, 9])).map (fun t => (t.fault, t.pc)) = some (none, 22) := by decide

/-! ### Fault order and the top of memory (vectors V2, V6, P6a) -/

theorem test_fault_order :
    (after (place State.reset 0 [0xA0, 8, 9])).map (·.fault) = some (some (.outOfBoundsReg 8)) ∧
    (after (place State.reset 0 [0xA3, 9, 1])).map (·.fault) = some (some (.outOfBoundsReg 9)) ∧
    (after (place State.reset 254 [0x00])).map (·.fault) = some (some (.outOfBoundsMem 256)) ∧
    (after State.reset).map (fun t => (t.statusCode, t.statusInfo, t.pc)) = some (1, 0, 0) := by decide

theorem test_fetch_at_the_top :
    (after (place State.reset 253 [0x01])).map (fun t => (t.run, t.pc)) = some (.halted, 253) ∧
    (after (place State.reset 254 [0x01])).map (fun t => (t.fault, t.pc)) = some (some (.outOfBoundsMem 256), 254) ∧
    (after (place State.reset 255 [0x01])).map (·.fault) = some (some (.outOfBoundsMem 256)) ∧
    (after (place State.reset 253 [0x82, 0, 7])).map (fun t => (t.reg 0, t.pc)) = some (7, 256) := by decide

/-! ### The host's side (R18, R62, R174; program S1) -/

theorem test_render : renderOut [8, 0, 255] = ['8', '\n', '0', '\n', '2', '5', '5', '\n'] := by decide

theorem test_parse_line :
    parseLine ['1', '0', '0', '0', '0', '0', '1', '0', ' ', '#', 'L'] = .ok (some 130) ∧ parseLine ['#', '1'] = .ok none ∧
    parseLine ['1', '0', '#', '0', '0', '0', '0', '0', '0'] =
      .error (.parseError ['1', '0', '#', '0', '0', '0', '0', '0', '0']) ∧
    parseLine [' ', '1'] = .error (.unspecifiedLine [' ', '1']) := ⟨rfl, rfl, rfl, rfl⟩

theorem test_assembly :
    assembly (.ldi 0 8) = ['L', 'D', 'I', ' ', 'R', '0', ',', '8'] ∧ assembly (.prn 0) = ['P', 'R', 'N', ' ', 'R', '0'] ∧
    assembly (.cmp 1 2) = ['C', 'M', 'P', ' ', 'R', '1', ',', 'R', '2'] ∧ assembly .hlt = ['H', 'L', 'T'] := by decide

theorem test_success_is_a_clean_halt :
    State.reset.halt.succeeded = some true ∧ (State.reset.takeFault (.divisionByZero 0)).succeeded = some false ∧
    State.reset.succeeded = none := by decide

theorem test_launch_errors :
    launch none = .error .loadError ∧ launch (some []) = .ok State.reset ∧
    State.reset.load (image 257) = .error (.imageTooLong (image 257).length) :=
  ⟨rfl, rfl, if_neg (by rw [image_length]; decide)⟩

/-! ### Witnesses: concrete states and operands that meet a statement's hypotheses, one theorem a statement, each clause at
a boundary of its range -/

/-- A machine with something in it, in the invariant: used by several witnesses. -/
def sample : State := ((place (regs01 7 2) 253 [0x45, 0, 7]).setFl 2).emit 9

theorem sample_inv : Inv sample := ⟨by decide, by decide, by decide, by decide⟩

theorem witness_DecodeAndEncodeAgree : decode 0x82 0xFF 0xFF = .ok (.ldi 0xFF 0xFF) := rfl

theorem witness_OpcodeFieldsAreItsHighBits :
    operandCount 0xC0 = 3 ∧ operandCount 0xFF = 3 ∧ operandCount 0xBF ≠ 3 := by decide

theorem witness_InstructionsLieAtAscendingAddresses :
    Memory.wf sample.mem = true ∧ 253 ≤ 253 ∧ 1 < (Instr.ldi 7#8 255#8).operands.length := by decide

theorem witness_UnusedTrailingBytesAreIgnored : operandCount 0x7F ≤ 1 ∧ operandCount 0x3F = 0 := by decide

theorem witness_MemoryPrimitivesAccessOneCell : Memory.wf sample.mem = true ∧ 255 ≤ 255 ∧ 255 < 256 := by decide

theorem witness_RegistersAndCellsAreIndependent :
    (6 : Fin 8) ≠ 7 ∧ Memory.wf sample.mem = true ∧ (254 : Nat) ≠ 255 := by decide

theorem witness_CanonicalMemoriesAreEqualWhenTheyReadTheSame :
    Memory.wf (Memory.write [(3, 1#8)] 9 2#8) = true ∧ Memory.wf [(3, 1#8), (9, 2#8)] = true ∧
    ∀ a, a ≤ 255 → Memory.read (Memory.write [(3, 1#8)] 9 2#8) a = Memory.read [(3, 1#8), (9, 2#8)] a :=
  ⟨rfl, rfl, fun _ _ => rfl⟩

theorem witness_ResetMemoryIsZeroInAllCells : 0 ≤ 255 ∧ 255 ≤ 255 := by decide

theorem witness_FirstStepStartsFromTheResetValues :
    (∃ s, State.reset.load [0x82, 0, 8] = .ok s) ∧ (0 : Fin 8) ≠ 7 ∧ (6 : Fin 8) ≠ 7 := ⟨⟨_, rfl⟩, by decide, by decide⟩

theorem witness_LoadPlacesTheImageFromAddressZero :
    (image 256).length ≤ 256 ∧ 255 < (image 256).length ∧ (image 0).length ≤ 0 ∧ 255 ≤ 255 := by
  simp only [image_length]; decide

theorem witness_LongImageIsRefused : 256 < (image 257).length := by rw [image_length]; decide

theorem witness_FirstOpcodeIsTheByteAtAddressZero :
    ∃ t, State.reset.load [0x01] = .ok t ∧ ∃ f, fetch t = .ok f ∧ decode f.ir f.opa f.opb = .ok .hlt :=
  ⟨_, rfl, _, rfl, rfl⟩

theorem witness_ProgramTextGivesOneByteALine :
    (['0', '1', '0', '1', '0', '1', '0'].head? = some '0' ∨ ['0', '1', '0', '1', '0', '1', '0'].head? = some '1') ∧
    (['0', '1', '0', '1', '0', '1', '0'].takeWhile (fun c => c = '0' || c = '1')).length < 8 ∧
    parseText [['0', '0', '0', '0', '0', '0', '0', '1']] = .ok [1] ∧ parseLine [] = .ok none ∧
    parseLine ['1', '1', '1', '1', '1', '1', '1', '1'] = .ok (some 255) :=
  ⟨.inl rfl, by decide, rfl, rfl, rfl⟩

theorem witness_StepRunsTheDecodedInstruction :
    sample.run = .running ∧ sample.pc.toNat ≤ 253 ∧ sample.pc.toNat = 253 ∧
    decode (Memory.read sample.mem sample.pc.toNat) (Memory.read sample.mem (sample.pc.toNat + 1))
      (Memory.read sample.mem (sample.pc.toNat + 2)) = .ok (.push 0#8) := ⟨rfl, by decide, by decide, rfl⟩

theorem witness_StepRunsTheInstructionEncodedAtPc :
    sample.run = .running ∧ sample.pc.toNat ≤ 253 ∧ ∀ k, k < (encode (.push 0#8)).length →
      Memory.read sample.mem (sample.pc.toNat + k) = (encode (.push 0#8)).getD k 0#8 := by decide

theorem witness_FetchWordIsTheNextInstruction :
    Memory.wf (place State.reset 256 []).mem = true ∧ decodeTableWord 24 0x0100A0 = some (.add 0#8 1#8) := by decide

theorem witness_FetchFaultsExactlyAtTheTopOfMemory :
    [253, 254, 255, 256].map (fun pc => ((place State.reset pc []).run, (place State.reset pc []).pc.toNat)) =
      [(.running, 253), (.running, 254), (.running, 255), (.running, 256)] := by decide

theorem witness_UnsupportedOpcodesFault :
    (place State.reset 253 []).run = .running ∧ (place State.reset 253 []).pc.toNat ≤ 253 ∧
    Memory.read (place State.reset 253 []).mem 253 ∉ [0x01#8, 0x11#8, 0x45#8, 0x46#8, 0x47#8, 0x50#8, 0x54#8, 0x55#8, 0x56#8,
      0x82#8, 0xA0#8, 0xA1#8, 0xA2#8, 0xA3#8, 0xA7#8] := by decide

theorem witness_StoppedCoreHasNoStep :
    State.reset.halt.run = .halted ∧ (State.reset.takeFault (.unsupportedOperation 0)).run = .faulted ∧
    State.reset.halt.run ≠ .running := by decide

theorem witness_RunningCoreAlwaysHasANextState : sample.run = .running := rfl

theorem witness_StepKeepsTheInvariant : Inv sample ∧ ∃ t, step sample = .next t := ⟨sample_inv, _, rfl⟩

theorem witness_InvariantHoldsAfterResetAndLoad : ∃ t, State.reset.load (image 256) = .ok t :=
  image_loads 256 (Nat.le_refl _)

theorem witness_StepRaisesTheFirstFaultOfTheList :
    Inv sample ∧ sample.run = .running ∧ stepFault sample = none ∧
    stepFault (place State.reset 254 []) = some (.outOfBoundsMem 256) ∧
    stepFault (place State.reset 0 [0x00]) = some (.unsupportedOperation 0) ∧
    stepFault (place State.reset 0 [0xA3, 8, 9]) = some (.outOfBoundsReg 8) ∧
    stepFault (place State.reset 0 [0xA3, 7, 0]) = some (.divisionByZero 0) :=
  ⟨sample_inv, by decide, by decide, by decide, by decide, by decide, by decide⟩

theorem witness_FaultsChangeNothingElse : ∃ t, step State.reset = .next t ∧ t.run = .faulted := ⟨_, rfl, rfl⟩

theorem witness_WellFormedFaultsOnlyOnAZeroDivisor :
    (Instr.div 7#8 0#8).wellFormed = true ∧ State.reset.run ≠ .faulted ∧
    ∃ t, exec (.div 7#8 0#8) State.reset = .next t ∧ t.run = .faulted := ⟨by decide, by decide, _, rfl, rfl⟩

theorem witness_RegisterIndexAboveSevenFaults : 8 ≤ (8#8 : Byte).toNat ∧ 8 ≤ (255#8 : Byte).toNat := by decide

theorem witness_AluChecksOperandAThenOperandB : 8 ≤ (8#8 : Byte).toNat ∧ (7#8 : Byte).toNat < 8 := by decide

theorem witness_StatusPortReportsTheFault : State.reset.fault = none := rfl

theorem witness_DivWritesTheQuotientOrFaultsOnZero : (regs01 255 1).reg 1 ≠ 0#8 ∧ (regs01 255 0).reg 1 = 0#8 := by decide

theorem witness_CmpRecomputesTheFlags :
    ((regs01 255 255).reg 0).toNat = ((regs01 255 255).reg 1).toNat ∧
    ((regs01 255 254).reg 1).toNat < ((regs01 255 254).reg 0).toNat ∧
    ((regs01 254 255).reg 0).toNat < ((regs01 254 255).reg 1).toNat := by decide

theorem witness_OnlyCmpWritesTheFlags :
    (∀ a b, Instr.sub 4#8 4#8 ≠ .cmp a b) ∧ ∃ t, exec (.sub 4#8 4#8) sample = .next t := ⟨fun _ _ h => (by cases h), _, rfl⟩

theorem witness_OnlyHltHalts : sample.run = .running ∧ ∃ t, exec .hlt sample = .next t ∧ t.run = .halted :=
  ⟨rfl, _, rfl, rfl⟩

theorem witness_OutputOnlyGrowsByPrn : (∃ t, exec (.prn 7#8) sample = .next t) ∧ ∃ t, exec .ret sample = .next t :=
  ⟨⟨_, rfl⟩, _, rfl⟩

theorem witness_PushStoresAtTheDecrementedSp : Memory.wf (State.reset.setReg 7 0).mem = true := rfl

theorem witness_PopLoadsFromSpThenIncrements : (6 : Fin 8) ≠ 7 ∧ (7 : Fin 8) = 7 := by decide

theorem witness_PushThenPopBalances : (6 : Fin 8) ≠ 7 ∧ (0 : Fin 8) ≠ 7 ∧ Memory.wf sample.mem = true := by decide

theorem witness_PushesThenPopsReturnInReverseOrder :
    ([0, 1, 6] : List (Fin 8)).length = ([1, 0, 5] : List (Fin 8)).length ∧ ([0, 1, 6] : List (Fin 8)).length ≤ 256 ∧
    7 ∉ ([0, 1, 6] : List (Fin 8)) ∧ 7 ∉ ([1, 0, 5] : List (Fin 8)) ∧ Memory.wf sample.mem = true ∧
    2 < ([1, 0, 5] : List (Fin 8)).length ∧
    ([1, 0, 5] : List (Fin 8)).getD 0 0 ∉ ([1, 0, 5] : List (Fin 8)).drop 1 ∧
    (List.replicate 256 (0 : Fin 8)).length ≤ 256 ∧ 7 ∉ List.replicate 256 (0 : Fin 8) :=
  ⟨rfl, by decide, by decide, by decide, by decide, by decide, by decide, by rw [List.length_replicate],
    fun h => absurd (List.eq_of_mem_replicate h) (by decide)⟩

theorem witness_CallPushesTheReturnAddressAndJumps : Memory.wf sample.mem = true ∧ sample.pc.toNat ≤ 253 := by decide

theorem witness_RetReturnsBehindTheCall :
    Memory.wf sample.mem = true ∧ sample.pc.toNat ≤ 253 ∧
    ∃ t u : State, exec (.call 0#8) sample = .next t ∧ u.reg 7 = t.reg 7 ∧
      Memory.read u.mem (t.reg 7).toNat = Memory.read t.mem (t.reg 7).toNat ∧ u.fl ≠ t.fl :=
  ⟨by decide, by decide, _, State.setFl _ 1, rfl, rfl, rfl, by decide⟩

theorem witness_JeqJumpsExactlyWhenEqual :
    (State.reset.setFl 1).fl.getLsbD 0 = true ∧ (State.reset.setFl 4).fl.getLsbD 0 = false ∧ 8 ≤ (8#8 : Byte).toNat := by
  decide

theorem witness_JneJumpsExactlyWhenNotEqual :
    (State.reset.setFl 2).fl.getLsbD 0 = false ∧ (State.reset.setFl 1).fl.getLsbD 0 = true ∧ 8 ≤ (8#8 : Byte).toNat := by
  decide

theorem witness_OnlyListedRegistersChange :
    (∃ t, exec (.pop 5#8) sample = .next t) ∧ regByte 6 ∉ writtenRegisters (.pop 5#8) := ⟨⟨_, rfl⟩, by decide⟩

theorem witness_OnlyPushAndCallStore :
    (∃ t, exec (.push 0#8) sample = .next t) ∧ storedAddress sample (.push 0#8) = some 0xF3 ∧
    (∃ t, exec (.pop 0#8) sample = .next t) ∧ storedAddress sample (.pop 0#8) = none := ⟨⟨_, rfl⟩, by decide, ⟨_, rfl⟩, rfl⟩

theorem witness_AutoAdvanceFollowsTheOpcodeBits :
    sample.run = .running ∧ sample.pc.toNat = 253 ∧ setsPc (Instr.push 0#8).opcode = false ∧
    ∃ t, exec (.push 0#8) sample = .next t ∧ t.run = .running := ⟨rfl, by decide, by decide, _, rfl, rfl⟩

theorem witness_NextFetchSeesThePushedByte :
    (0 : Fin 8) ≠ 7 ∧ Memory.wf (place (State.reset.setReg 7 254) 251 [0x45, 0]).mem = true ∧
    (place (State.reset.setReg 7 254) 251 [0x45, 0]).pc.toNat + 2 =
      (place (State.reset.setReg 7 254) 251 [0x45, 0]).decSp.stackAddr ∧
    (place (State.reset.setReg 7 254) 251 [0x45, 0]).pc.toNat ≤ 251 := by decide

end Sys2Proof.Machine.Tests
end

section
/-! SUPPORT. The statements about the state's storage (10_state.md), each from the laws of registers and of memory. -/

namespace Sys2Proof.Machine

/-- Settles O8, from the laws of reading back and of the frame: `setReg_reg_self` and `setReg_reg_of_ne` for registers,
`read_write_self` and `read_write_of_ne` for cells. Only a cell's read-back needs the canonical form. -/
theorem registersAndCellsAreIndependent : Obligations.RegistersAndCellsAreIndependent := by
  unfold Obligations.RegistersAndCellsAreIndependent
  constructor
  · intro s i j v
    exact ⟨setReg_reg_self s i v, fun ne => setReg_reg_of_ne s i j v ne.symm⟩
  · intro m a b v wf
    exact ⟨Memory.read_write_self wf a v, fun ne => Memory.read_write_of_ne m v ne.symm⟩

end Sys2Proof.Machine
end

section
/-! SUPPORT. The statements about the memory primitives MemRead and MemWrite (20_memory.md R30, R32, R33), from the laws of
memory accesses and of reading after a write. -/

namespace Sys2Proof.Machine

/-- Settles O7: inside the address space by `memRead_of_lt` and `memWrite_of_lt`, outside it by `memRead_of_ge` and
`memWrite_of_ge`. A completed write is one `setMem`, which touches nothing beside memory; only the read-back of the written
cell needs the canonical form. -/
theorem memoryPrimitivesAccessOneCell : Obligations.MemoryPrimitivesAccessOneCell := by
  unfold Obligations.MemoryPrimitivesAccessOneCell
  intro s a v wf
  constructor
  · intro le
    have lt : a < 256 := Nat.lt_succ_of_le le
    have readBack : Memory.read (s.setMem (Memory.write s.mem a v)).mem a = v := Memory.read_write_self wf a v
    have otherCells : SameMemoryExcept a s (s.setMem (Memory.write s.mem a v)) :=
      fun _ ne => Memory.read_write_of_ne s.mem v ne
    have registers : SameRegsExcept [] s (s.setMem (Memory.write s.mem a v)) := fun r _ => setMem_reg s r _
    exact ⟨memRead_of_lt lt, _, memWrite_of_lt lt v, readBack, otherCells, registers, setMem_pc .., setMem_fl ..,
      setMem_out .., setMem_run .., setMem_fault ..⟩
  · intro gt
    exact ⟨memRead_of_ge gt, memWrite_of_ge gt v⟩

/-- A read succeeds exactly inside the address space. -/
theorem memRead_succeeds_iff (s : State) (a : Nat) : (∃ v, memRead s a = .ok v) ↔ a < 256 := by
  constructor
  · rintro ⟨v, ok⟩
    by_contra ge
    rw [memRead_of_ge (Nat.le_of_not_lt ge)] at ok
    cases ok
  · exact fun lt => ⟨_, memRead_of_lt lt⟩

/-- Memory after reset lists no cell, so every address reads as the unlisted byte. -/
theorem read_reset (a : Nat) : Memory.read State.reset.mem a = 0x00#8 := rfl

/-- Settles O10, from `memRead_succeeds_iff` and `read_reset`. -/
theorem resetMemoryIsZeroInAllCells : Obligations.ResetMemoryIsZeroInAllCells := by
  unfold Obligations.ResetMemoryIsZeroInAllCells
  intro a
  constructor
  · intro le
    rw [memRead_of_lt (Nat.lt_succ_of_le le), read_reset]
  · intro s
    rw [memRead_succeeds_iff, Nat.lt_succ_iff]

end Sys2Proof.Machine
end

section
/-! SUPPORT. The decoder by cases, and the statements about opcodes and the layout of an instruction in memory
(30_encoding.md R50, R54, R55). -/

namespace Sys2Proof.Machine

/-! ### The decoder -/

/-- The opcode bytes of the 15 instructions (30_encoding.md R54). -/
def opcodeBytes : List Byte :=
  [0x01#8, 0x11#8, 0x45#8, 0x46#8, 0x47#8, 0x50#8, 0x54#8, 0x55#8, 0x56#8, 0x82#8, 0xA0#8, 0xA1#8, 0xA2#8, 0xA3#8, 0xA7#8]

theorem opcode_mem_opcodeBytes (i : Instr) : i.opcode ∈ opcodeBytes := by
  cases i <;> simp [Instr.opcode, opcodeBytes]

/-- Every opcode byte is accepted, whatever follows it. -/
theorem decode_succeeds_of_mem {ir : Byte} (h : ir ∈ opcodeBytes) (p q : Byte) : ∃ i, decode ir p q = .ok i := by
  simp only [opcodeBytes, List.mem_cons, List.not_mem_nil, or_false] at h
  rcases h with rfl | rfl | rfl | rfl | rfl | rfl | rfl | rfl | rfl | rfl | rfl | rfl | rfl | rfl | rfl <;> exact ⟨_, rfl⟩

/-- The decoder answers an instruction only for that instruction's own opcode byte. -/
theorem opcode_of_decode {ir p q : Byte} {i : Instr} (h : decode ir p q = .ok i) : i.opcode = ir := by
  unfold decode at h
  split at h <;> cases h <;> rfl

/-- The decoder has one error, which names the byte it rejects. -/
theorem decode_error {ir p q : Byte} {e : DecodeError} (h : decode ir p q = .error e) : e = .unsupportedOperation ir := by
  unfold decode at h
  split at h <;> cases h
  rfl

/-- An instruction is decoded from its opcode byte when the two bytes after it begin with its operands. -/
theorem decode_opcode {i : Instr} {p q : Byte} (h : [p, q].take i.operands.length = i.operands) :
    decode i.opcode p q = .ok i := by
  cases i <;> cases h <;> rfl

/-! ### The opcode byte's fields -/

/-- The operand count is the opcode byte's two high bits, as a number (30_encoding.md R51). -/
theorem operandCount_eq (ir : Byte) : operandCount ir = ir.toNat / 64 := by
  have lt := ir.isLt
  simp only [operandCount, BitVec.extractLsb'_toNat, Nat.shiftRight_eq_div_pow]
  omega

/-- The field law of `Laws.OpcodeFields` holds of every instruction. -/
theorem opcodeFields (i : Instr) : Laws.OpcodeFields.Statement i :=
  match i with
  | .hlt => Laws.OpcodeFields.hlt
  | .ret => Laws.OpcodeFields.ret
  | .push r => Laws.OpcodeFields.push r
  | .pop r => Laws.OpcodeFields.pop r
  | .prn r => Laws.OpcodeFields.prn r
  | .call r => Laws.OpcodeFields.call r
  | .jmp r => Laws.OpcodeFields.jmp r
  | .jeq r => Laws.OpcodeFields.jeq r
  | .jne r => Laws.OpcodeFields.jne r
  | .ldi r v => Laws.OpcodeFields.ldi r v
  | .add a b => Laws.OpcodeFields.add a b
  | .sub a b => Laws.OpcodeFields.sub a b
  | .mul a b => Laws.OpcodeFields.mul a b
  | .div a b => Laws.OpcodeFields.div a b
  | .cmp a b => Laws.OpcodeFields.cmp a b

theorem operands_length_eq (i : Instr) : i.operands.length = i.opcode.toNat / 64 := by
  obtain ⟨count, -, -⟩ := opcodeFields i
  rw [← operandCount_eq, count]

theorem operands_length_le (i : Instr) : i.operands.length ≤ 2 := by
  cases i <;> simp [Instr.operands]

theorem length_encode (i : Instr) : (encode i).length = 1 + i.operands.length := Nat.add_comm ..

/-! ### The encoding in memory -/

/-- A list of at most two bytes begins a pair that has its bytes in their places. -/
theorem take_pair_eq {p q : Byte} {vs : List Byte} (le : vs.length ≤ 2) (first : 0 < vs.length → p = vs.getD 0 0#8)
    (second : 1 < vs.length → q = vs.getD 1 0#8) : [p, q].take vs.length = vs := by
  match vs with
  | [] => rfl
  | [_] => exact congrArg ([·]) (first Nat.one_pos)
  | [_, _] => exact congrArg₂ ([·, ·]) (first Nat.two_pos) (second Nat.one_lt_two)

/-- The byte at offset k of an encoding that was written to memory. -/
theorem read_writeBytes_encode {m : Memory} (wf : Memory.wf m = true) {a : Nat} (le : a ≤ 253) (i : Instr) {k : Nat}
    (lt : k < (encode i).length) :
    Memory.read (Memory.writeBytes m a (encode i)) (a + k) = (encode i).getD k 0#8 := by
  have len := length_encode i
  have two := operands_length_le i
  have fits : a + (encode i).length ≤ 256 := by omega
  rw [Memory.read_writeBytes wf fits, if_pos (by omega), Nat.add_sub_cancel_left]
  rfl

/-- Settles O2. The decoder either accepts, and then by `opcode_of_decode` the byte is an instruction's opcode, or rejects,
and then by `decode_succeeds_of_mem` it is none of the 15. -/
theorem onlyExactOpcodeMatchesDecode : Obligations.OnlyExactOpcodeMatchesDecode := by
  unfold Obligations.OnlyExactOpcodeMatchesDecode
  refine ⟨fun ir p q => ?_, by decide, by decide, by decide, fun _ _ => rfl⟩
  cases h : decode ir p q with
  | ok i =>
    have op := opcode_of_decode h
    exact .inl ⟨⟨i, rfl, op⟩, op ▸ opcode_mem_opcodeBytes i⟩
  | error e =>
    refine .inr ⟨congrArg _ (decode_error h), fun mem => ?_⟩
    obtain ⟨i, ok⟩ := decode_succeeds_of_mem mem p q
    cases h.symm.trans ok

/-- Settles O5: the length from the field law, the bytes read from `read_writeBytes_encode`, and the decoding from
`decode_opcode`, since the operands that are there are the bytes read behind the opcode. -/
theorem instructionsLieAtAscendingAddresses : Obligations.InstructionsLieAtAscendingAddresses := by
  unfold Obligations.InstructionsLieAtAscendingAddresses
  intro i m a wf le
  have len := length_encode i
  have atOpcode : Memory.read (Memory.writeBytes m a (encode i)) a = i.opcode :=
    read_writeBytes_encode wf le i (k := 0) (by omega)
  have atOperand (k : Nat) (lt : k < i.operands.length) :
      Memory.read (Memory.writeBytes m a (encode i)) (a + 1 + k) = i.operands.getD k 0#8 := by
    rw [show a + 1 + k = a + (k + 1) by omega, read_writeBytes_encode wf le i (by omega)]
    rfl
  have two := operands_length_le i
  refine ⟨by rw [len, operands_length_eq], by omega, atOpcode, atOperand, ?_⟩
  rw [atOpcode]
  exact decode_opcode (take_pair_eq two (atOperand 0) (atOperand 1))

/-- Settles O1: the rows' fields are numbers to compute, and the decoder's answer on each of the 15 bytes is its equation. -/
theorem opcodeTableRowsDecode : Obligations.OpcodeTableRowsDecode := by
  unfold Obligations.OpcodeTableRowsDecode
  constructor
  · decide
  · intro p q
    exact ⟨rfl, rfl, rfl, rfl, rfl, rfl, rfl, rfl, rfl, rfl, rfl, rfl, rfl, rfl, rfl⟩

end Sys2Proof.Machine
end

section
/-! SUPPORT. The statement about the values decode computes from the opcode byte (40_execution_loop.md R72), from the field
laws and the decoder by cases. -/

namespace Sys2Proof.Machine

/-- A bit of a byte, read off its value. -/
theorem getLsbD_iff_div_mod (b : Byte) (k : Nat) : b.getLsbD k = true ↔ b.toNat / 2 ^ k % 2 = 1 := by
  rw [← BitVec.testBit_toNat, Nat.testBit_eq_decide_div_mod_eq, decide_eq_true_iff]

/-- Every byte the decoder accepts has an operand count of at most 2: it is an instruction's opcode, and no instruction has
more operands. -/
theorem operandCount_le_of_decode {ir p q : Byte} {i : Instr} (h : decode ir p q = .ok i) : operandCount ir ≤ 2 := by
  rw [← opcode_of_decode h, operandCount_eq, ← operands_length_eq]
  exact operands_length_le i

/-- Settles O4: the fields by `operandCount_eq` and `getLsbD_iff_div_mod`; a byte with operand count 3 is rejected because
accepting it would contradict `operandCount_le_of_decode`. -/
theorem opcodeFieldsAreItsHighBits : Obligations.OpcodeFieldsAreItsHighBits := by
  unfold Obligations.OpcodeFieldsAreItsHighBits
  intro ir
  have countThree : operandCount ir = 3 ↔ 0xC0 ≤ ir.toNat := by
    have lt := ir.isLt
    rw [operandCount_eq]
    omega
  refine ⟨operandCount_eq ir, getLsbD_iff_div_mod ir 5, getLsbD_iff_div_mod ir 4, countThree, fun three p q => ?_⟩
  cases h : decode ir p q with
  | ok i =>
    have atMostTwo := operandCount_le_of_decode h
    omega
  | error e => exact congrArg _ (decode_error h)

end Sys2Proof.Machine
end

section
/-! SUPPORT. Everything exec can do, said once: an instruction completes, with one next state, or its fault is taken. From
it, the statement about the flags register (41_alu.md R98). -/

namespace Sys2Proof.Machine

/-- The next state of an instruction that completes, for each instruction and, where the effect depends on the state, each
case of it. It says what the arms of exec do when no fault is raised (`exec_of_completes`). -/
inductive Completes (s : State) : Instr → State → Prop
  | hlt : Completes s .hlt s.halt
  | ret : Completes s .ret (s.jump (Memory.read s.mem s.stackAddr)).incSp
  | push (i : Fin 8) : Completes s (.push (regByte i))
      ((s.decSp.setMem (Memory.write s.mem s.decSp.stackAddr (s.decSp.reg i))).advance 2)
  | pop (i : Fin 8) : Completes s (.pop (regByte i))
      ((s.setReg i (Memory.read s.mem s.stackAddr)).incSp.advance 2)
  | prn (i : Fin 8) : Completes s (.prn (regByte i)) ((s.emit (s.reg i)).advance 2)
  | call (i : Fin 8) : Completes s (.call (regByte i))
      ((s.decSp.setMem (Memory.write s.mem s.decSp.stackAddr (returnAddress s.pc))).jump (s.decSp.reg i))
  | jmp (i : Fin 8) : Completes s (.jmp (regByte i)) (s.jump (s.reg i))
  | jeqTaken (equal : flE s.fl = true) (i : Fin 8) : Completes s (.jeq (regByte i)) (s.jump (s.reg i))
  | jeqNotTaken (unequal : flE s.fl = false) (r : Byte) : Completes s (.jeq r) (s.advance 2)
  | jneTaken (unequal : flE s.fl = false) (i : Fin 8) : Completes s (.jne (regByte i)) (s.jump (s.reg i))
  | jneNotTaken (equal : flE s.fl = true) (r : Byte) : Completes s (.jne r) (s.advance 2)
  | ldi (i : Fin 8) (v : Byte) : Completes s (.ldi (regByte i) v) ((s.setReg i v).advance 3)
  | add (i j : Fin 8) : Completes s (.add (regByte i) (regByte j)) ((s.setReg i (s.reg i + s.reg j)).advance 3)
  | sub (i j : Fin 8) : Completes s (.sub (regByte i) (regByte j)) ((s.setReg i (s.reg i - s.reg j)).advance 3)
  | mul (i j : Fin 8) : Completes s (.mul (regByte i) (regByte j)) ((s.setReg i (s.reg i * s.reg j)).advance 3)
  | div (i j : Fin 8) (nonzero : s.reg j ≠ 0#8) :
      Completes s (.div (regByte i) (regByte j)) ((s.setReg i (s.reg i / s.reg j)).advance 3)
  | cmp (i j : Fin 8) : Completes s (.cmp (regByte i) (regByte j))
      ((s.setFl (compareFlags (s.reg i) (s.reg j))).advance 3)

@[simp] theorem jumpToRegister_regByte (s : State) (i : Fin 8) :
    jumpToRegister (regByte i) s = .ok (s.jump (s.reg i)) := by
  simp only [jumpToRegister, readReg_regByte]; rfl

theorem jumpToRegister_of_ge {s : State} {b : Byte} (h : 8 ≤ b.toNat) :
    jumpToRegister b s = .error (.outOfBoundsReg b) := by
  simp only [jumpToRegister, readReg_of_ge h]; rfl

@[simp] theorem branch_true (r : Byte) (s : State) : branch true r s = jumpToRegister r s := rfl

@[simp] theorem branch_false (r : Byte) (s : State) : branch false r s = .ok (s.advance 2) := rfl

theorem quotient_zero (pc : PcWord) (va : Byte) : quotient pc va 0#8 = .error (.divisionByZero pc.toNat) := rfl

theorem quotient_of_ne {vb : Byte} (h : vb ≠ 0#8) (pc : PcWord) (va : Byte) : quotient pc va vb = .ok (va / vb) := if_neg h

theorem exec_of_completes {s t : State} {i : Instr} (h : Completes s i t) : exec i s = .next t := by
  cases h with
  | hlt => rfl
  | ret => simp only [exec, execRet, loadTop_eq]; rfl
  | push i => simp only [exec, execPush, regIndex_regByte, storeTop_eq]; rfl
  | pop i => simp only [exec, execPop, regIndex_regByte, loadTop_eq]; rfl
  | prn i => simp only [exec, execPrn, readReg_regByte]; rfl
  | call i => simp only [exec, execCall, regIndex_regByte, storeTop_eq]; rfl
  | jmp i => simp only [exec, execJmp, jumpToRegister_regByte, commit_ok]
  | jeqTaken equal i => simp only [exec, execJeq, equal, branch_true, jumpToRegister_regByte, commit_ok]
  | jeqNotTaken unequal r => simp only [exec, execJeq, unequal, branch_false, commit_ok]
  | jneTaken unequal i =>
    simp only [exec, execJne, unequal, Bool.not_false, branch_true, jumpToRegister_regByte, commit_ok]
  | jneNotTaken equal r => simp only [exec, execJne, equal, Bool.not_true, branch_false, commit_ok]
  | ldi i v => simp only [exec, execLdi, writeReg_regByte]; rfl
  | add i j => simp only [exec, execAdd, arithmetic_regByte]; rfl
  | sub i j => simp only [exec, execSub, arithmetic_regByte]; rfl
  | mul i j => simp only [exec, execMul, arithmetic_regByte]; rfl
  | div i j nonzero => simp only [exec, execDiv, arithmetic_regByte, quotient_of_ne nonzero]; rfl
  | cmp i j => simp only [exec, execCmp, readRegPair_regByte]; rfl

/-- The instruction completes, or the step ends with a fault taken. -/
def CompletesOrFaults (s : State) (i : Instr) : Prop :=
  (∃ t, Completes s i t) ∨ ∃ c, exec i s = .next (s.takeFault c)

/-- An instruction with a register operand: one case for the eight registers and one for the bytes that name none. -/
theorem completesOrFaults_of_register {s : State} {mk : Byte → Instr}
    (register : ∀ i, CompletesOrFaults s (mk (regByte i)))
    (noRegister : ∀ b, 8 ≤ b.toNat → exec (mk b) s = .next (s.takeFault (.outOfBoundsReg b))) (r : Byte) :
    CompletesOrFaults s (mk r) := by
  rcases regByte_cases r with ⟨i, rfl⟩ | ge
  · exact register i
  · exact .inr ⟨_, noRegister r ge⟩

/-- An ALU instruction: operand a is checked first, then operand b (41_alu.md R96). -/
theorem completesOrFaults_of_registers {s : State} {mk : Byte → Byte → Instr}
    (registers : ∀ i j, CompletesOrFaults s (mk (regByte i) (regByte j)))
    (noLeft : ∀ a b, 8 ≤ a.toNat → exec (mk a b) s = .next (s.takeFault (.outOfBoundsReg a)))
    (noRight : ∀ i b, 8 ≤ b.toNat → exec (mk (regByte i) b) s = .next (s.takeFault (.outOfBoundsReg b))) (a b : Byte) :
    CompletesOrFaults s (mk a b) :=
  completesOrFaults_of_register (mk := (mk · b))
    (fun i => completesOrFaults_of_register (registers i) (noRight i) b) (fun a => noLeft a b) a

/-- An arithmetic instruction checks its operands in the shared operation `arithmetic`, whatever it computes. -/
theorem completesOrFaults_of_arithmetic {s : State} {mk : Byte → Byte → Instr} {op : Byte → Byte → Raises Byte}
    (meaning : ∀ a b, exec (mk a b) s = commit s (arithmetic op a b s))
    (registers : ∀ i j, CompletesOrFaults s (mk (regByte i) (regByte j))) (a b : Byte) : CompletesOrFaults s (mk a b) := by
  refine completesOrFaults_of_registers registers (fun a b ge => ?_) (fun i b ge => ?_) a b
  · rw [meaning, arithmetic_of_ge_left ge, commit_error]
  · rw [meaning, arithmetic_of_ge_right ge, commit_error]

theorem completesOrFaults (s : State) (i : Instr) : CompletesOrFaults s i := by
  cases i with
  | hlt => exact .inl ⟨_, .hlt⟩
  | ret => exact .inl ⟨_, .ret⟩
  | push r =>
    refine completesOrFaults_of_register (fun i => .inl ⟨_, .push i⟩) (fun b ge => ?_) r
    simp only [exec, execPush, regIndex_of_ge ge]; rfl
  | pop r =>
    refine completesOrFaults_of_register (fun i => .inl ⟨_, .pop i⟩) (fun b ge => ?_) r
    simp only [exec, execPop, regIndex_of_ge ge]; rfl
  | prn r =>
    refine completesOrFaults_of_register (fun i => .inl ⟨_, .prn i⟩) (fun b ge => ?_) r
    simp only [exec, execPrn, readReg_of_ge ge]; rfl
  | call r =>
    refine completesOrFaults_of_register (fun i => .inl ⟨_, .call i⟩) (fun b ge => ?_) r
    simp only [exec, execCall, regIndex_of_ge ge]; rfl
  | jmp r =>
    refine completesOrFaults_of_register (fun i => .inl ⟨_, .jmp i⟩) (fun b ge => ?_) r
    simp only [exec, execJmp, jumpToRegister_of_ge ge, commit_error]
  | jeq r =>
    cases e : flE s.fl with
    | false => exact .inl ⟨_, .jeqNotTaken e r⟩
    | true =>
      refine completesOrFaults_of_register (fun i => .inl ⟨_, .jeqTaken e i⟩) (fun b ge => ?_) r
      simp only [exec, execJeq, e, branch_true, jumpToRegister_of_ge ge, commit_error]
  | jne r =>
    cases e : flE s.fl with
    | true => exact .inl ⟨_, .jneNotTaken e r⟩
    | false =>
      refine completesOrFaults_of_register (fun i => .inl ⟨_, .jneTaken e i⟩) (fun b ge => ?_) r
      simp only [exec, execJne, e, Bool.not_false, branch_true, jumpToRegister_of_ge ge, commit_error]
  | ldi r v =>
    refine completesOrFaults_of_register (mk := (.ldi · v)) (fun i => .inl ⟨_, .ldi i v⟩) (fun b ge => ?_) r
    simp only [exec, execLdi, writeReg_of_ge ge]; rfl
  | add a b => exact completesOrFaults_of_arithmetic (fun _ _ => rfl) (fun i j => .inl ⟨_, .add i j⟩) a b
  | sub a b => exact completesOrFaults_of_arithmetic (fun _ _ => rfl) (fun i j => .inl ⟨_, .sub i j⟩) a b
  | mul a b => exact completesOrFaults_of_arithmetic (fun _ _ => rfl) (fun i j => .inl ⟨_, .mul i j⟩) a b
  | div a b =>
    refine completesOrFaults_of_arithmetic (fun _ _ => rfl) (fun i j => ?_) a b
    by_cases zero : s.reg j = 0#8
    · refine .inr ⟨.divisionByZero s.pc.toNat, ?_⟩
      simp only [exec, execDiv, arithmetic_regByte, zero, quotient_zero]; rfl
    · exact .inl ⟨_, .div i j zero⟩
  | cmp a b =>
    refine completesOrFaults_of_registers (fun i j => .inl ⟨_, .cmp i j⟩) (fun a b ge => ?_) (fun i b ge => ?_) a b
    · simp only [exec, execCmp, readRegPair_of_ge_left ge]; rfl
    · simp only [exec, execCmp, readRegPair_of_ge_right ge]; rfl

/-- Everything exec can do when it answers a next state. -/
theorem exec_next {s t : State} {i : Instr} (h : exec i s = .next t) : Completes s i t ∨ ∃ c, t = s.takeFault c := by
  rcases completesOrFaults s i with ⟨u, done⟩ | ⟨c, fault⟩
  · cases h.symm.trans (exec_of_completes done)
    exact .inl done
  · cases h.symm.trans fault
    exact .inr ⟨c, rfl⟩

/-- Of the instructions that complete, CMP alone has an update of FL. -/
theorem Completes.fl_eq {s t : State} {i : Instr} (h : Completes s i t) (notCmp : ∀ a b, i ≠ .cmp a b) : t.fl = s.fl := by
  cases h with
  | cmp i j => exact absurd rfl (notCmp _ _)
  | _ => rfl

/-- Settles O36, from `exec_next`: a completed instruction keeps FL by `Completes.fl_eq`, and a taken fault keeps FL by
`takeFault_fl`. -/
theorem onlyCmpWritesTheFlags : Obligations.OnlyCmpWritesTheFlags := by
  unfold Obligations.OnlyCmpWritesTheFlags
  intro i s t notCmp next
  rcases exec_next next with done | ⟨c, rfl⟩
  · exact done.fl_eq notCmp
  · exact takeFault_fl s c

end Sys2Proof.Machine
end

section
/-! SUPPORT. The statements about the load and the first instruction after it (70_reset_and_hazards.md R172, R174), from the
laws of the load port, of memory and of the fetch. -/

namespace Sys2Proof.Machine

/-- An image that fits is loaded: the converse of `load_ok`. -/
theorem load_of_le {image : List Byte} (le : image.length ≤ 256) (s : State) :
    s.load image = .ok (s.setMem (Memory.writeBytes s.mem 0 image)) := if_pos le

/-- After a load from reset memory is the image, continued with 0x00: at every address, the addresses behind the image
included, it reads as the image's byte, if there is one. -/
theorem read_of_load_reset {image : List Byte} {t : State} (h : State.reset.load image = .ok t) (a : Nat) :
    Memory.read t.mem a = image.getD a 0x00#8 := by
  obtain ⟨le, rfl⟩ := load_ok h
  have wf : Memory.wf State.reset.mem = true := rfl
  rw [setMem_mem, Memory.read_writeBytes wf (by omega), read_reset, Nat.sub_zero, Nat.zero_add]
  split
  · rfl
  · exact (List.getD_eq_default _ _ (by omega)).symm

/-- A load leaves pc at the entry point, where a fetch succeeds. -/
theorem fetch_of_load_reset {image : List Byte} {t : State} (h : State.reset.load image = .ok t) :
    fetch t = .ok ⟨Memory.read t.mem 0, Memory.read t.mem 1, Memory.read t.mem 2⟩ := by
  obtain ⟨-, rfl⟩ := load_ok h
  exact fetch_of_le (Nat.zero_le 253)

/-- A step of a running core, from the bytes it fetches: the meaning of the instruction they decode to. -/
theorem step_of_decode {s : State} {f : Fetched} {i : Instr} (running : s.run = .running) (fetched : fetch s = .ok f)
    (decoded : decode f.ir f.opa f.opb = .ok i) : step s = exec i s := by
  simp only [step, running, fetched, decoded]

/-- Settles O12: the load succeeds by `load_of_le` as one `setMem`, which touches nothing beside memory, and both clauses
about memory are `read_of_load_reset`, inside the image and behind its end. -/
theorem loadPlacesTheImageFromAddressZero : Obligations.LoadPlacesTheImageFromAddressZero := by
  unfold Obligations.LoadPlacesTheImageFromAddressZero
  intro image le
  have loaded := load_of_le le State.reset
  have contents := read_of_load_reset loaded
  refine ⟨_, loaded, fun i _ => contents i, fun i behind _ => ?_, fun r _ => setMem_reg _ r _, setMem_pc .., setMem_fl ..,
    setMem_out .., setMem_run .., setMem_fault ..⟩
  rw [contents i, List.getD_eq_default _ _ behind]

/-- Settles O14: a load keeps pc 0 and run RUNNING, so the first step fetches the bytes at 0, 1 and 2 by
`fetch_of_load_reset`, the opcode byte is the image's first byte by `read_of_load_reset`, and the step is the decoded
instruction by `step_of_decode`. -/
theorem firstOpcodeIsTheByteAtAddressZero : Obligations.FirstOpcodeIsTheByteAtAddressZero := by
  unfold Obligations.FirstOpcodeIsTheByteAtAddressZero
  refine ⟨rfl, fun image t loaded => ?_⟩
  have running : t.run = .running := by
    obtain ⟨-, rfl⟩ := load_ok loaded
    rfl
  have fetched := fetch_of_load_reset loaded
  exact ⟨_, fetched, rfl, read_of_load_reset loaded 0, fun _ decoded => step_of_decode running fetched decoded⟩

end Sys2Proof.Machine
end

section
/-! SUPPORT. Decoding against encoding: what an accepted opcode says about the operands, and which trailing bytes count
(30_encoding.md sections 1 to 4). -/

namespace Sys2Proof.Machine

theorem operandCount_opcode (i : Instr) : operandCount i.opcode = i.operands.length := (opcodeFields i).1

/-- The operands of a decoded instruction are the first bytes behind the opcode; with `opcode_of_decode`, the converse of
`decode_opcode`. -/
theorem operands_of_decode {ir p q : Byte} {i : Instr} (h : decode ir p q = .ok i) :
    i.operands = [p, q].take (operandCount ir) := by
  rw [← opcode_of_decode h, operandCount_opcode]
  unfold decode at h
  split at h <;> cases h <;> rfl

/-- Every byte the decoder accepts is an instruction's opcode, and it accepts it again in front of any two bytes that begin
with the same operands. -/
theorem decode_ok_of_take_eq {ir p q p' q' : Byte} {i : Instr} (h : decode ir p q = .ok i)
    (same : [p, q].take (operandCount ir) = [p', q'].take (operandCount ir)) : decode ir p' q' = .ok i := by
  have op := opcode_of_decode h
  have operands := (operands_of_decode h).trans same
  subst op
  exact decode_opcode (by rw [← operandCount_opcode, ← operands])

/-- The decoder reads only as many trailing bytes as the opcode byte's operand count says (D19). -/
theorem decode_congr {ir p q p' q' : Byte} (same : [p, q].take (operandCount ir) = [p', q'].take (operandCount ir)) :
    decode ir p q = decode ir p' q' := by
  cases h : decode ir p q with
  | ok i => exact (decode_ok_of_take_eq h same).symm
  | error e =>
    cases h' : decode ir p' q' with
    | ok i => cases h.symm.trans (decode_ok_of_take_eq h' same.symm)
    | error e' => rw [decode_error h, decode_error h']

/-- Settles O3: one way by `decode_opcode`, since the bytes behind the opcode begin with the operands by `take_pair_eq`; the
other way by `opcode_of_decode` and `operands_of_decode`. -/
theorem decodeAndEncodeAgree : Obligations.DecodeAndEncodeAgree := by
  unfold Obligations.DecodeAndEncodeAgree
  constructor
  · intro i p q
    refine decode_opcode (take_pair_eq (operands_length_le i) (fun lt => ?_) (fun lt => ?_))
    · exact List.getD_append i.operands [p, q] 0#8 0 lt
    · exact List.getD_append i.operands [p, q] 0#8 1 lt
  · intro ir p q i h
    rw [Nat.add_comm, List.take_succ_cons, ← operands_of_decode h, ← opcode_of_decode h, encode]

/-- Settles O6, from `decode_congr`: with operand count at most 1 the second trailing byte is not among the operands, with
operand count 0 neither is. -/
theorem unusedTrailingBytesAreIgnored : Obligations.UnusedTrailingBytesAreIgnored := by
  unfold Obligations.UnusedTrailingBytesAreIgnored
  intro ir p q p' q'
  constructor
  · intro atMostOne
    apply decode_congr
    rcases Nat.le_one_iff_eq_zero_or_eq_one.1 atMostOne with zero | one
    · rw [zero, List.take_zero, List.take_zero]
    · rw [one]; rfl
  · intro zero
    apply decode_congr
    rw [zero, List.take_zero, List.take_zero]

end Sys2Proof.Machine
end

section
/-! SUPPORT. What an instruction that completes changes, one lemma per field of the state, and the statements about every
instruction that follow from them (10_state.md sections 2 and 5, 20_memory.md section 4, 40_execution_loop.md section 5). -/

namespace Sys2Proof.Machine

theorem regByte_inj {i j : Fin 8} : regByte i = regByte j ↔ i = j := ⟨regByte_injective, congrArg regByte⟩

variable {s t : State} {i : Instr}

/-- A completed instruction halts the core, and then it is HLT, or leaves the run state alone. -/
theorem Completes.run_cases (h : Completes s i t) : i = .hlt ∧ t.run = .halted ∨ t.run = s.run := by
  cases h with
  | hlt => exact .inl ⟨rfl, rfl⟩
  | _ => exact .inr rfl

theorem Completes.fault_eq (h : Completes s i t) : t.fault = s.fault := by
  cases h <;> rfl

theorem Completes.run_ne_faulted (h : Completes s i t) (before : s.run ≠ .faulted) : t.run ≠ .faulted := by
  rcases h.run_cases with ⟨-, halted⟩ | same
  · rw [halted]; decide
  · rw [same]; exact before

/-- Of the instructions that complete, PRN alone has an update of the output. -/
theorem Completes.out_cases (h : Completes s i t) :
    t.out = s.out ∨ ∃ r : Fin 8, i = .prn (regByte r) ∧ t.out = s.out ++ [s.reg r] := by
  cases h with
  | prn r => exact .inr ⟨r, rfl, rfl⟩
  | _ => exact .inl rfl

/-- A completed instruction leaves the memory array as it is, or stores one byte in the slot of the decremented SP. -/
theorem Completes.mem_cases (h : Completes s i t) :
    storedAddress s i = none ∧ t.mem = s.mem ∨
      storedAddress s i = some s.decSp.stackAddr ∧ ∃ v, t.mem = Memory.write s.mem s.decSp.stackAddr v := by
  cases h with
  | push r => exact .inr ⟨rfl, _, rfl⟩
  | call r => exact .inr ⟨rfl, _, rfl⟩
  | _ => exact .inl ⟨rfl, rfl⟩

/-- A completed instruction changes no register but those listed for it. -/
theorem Completes.reg_eq (h : Completes s i t) {r : Fin 8} (notWritten : regByte r ∉ writtenRegisters i) :
    t.reg r = s.reg r := by
  cases h <;> simp only [writtenRegisters, List.mem_cons, List.not_mem_nil, or_false, not_or, regByte_inj] at notWritten
  case hlt | prn | jmp | jeqTaken | jeqNotTaken | jneTaken | jneNotTaken | cmp => rfl
  case ret => exact incSp_reg_of_ne _ _ notWritten
  case push | call => exact decSp_reg_of_ne _ _ notWritten
  case pop => exact (incSp_reg_of_ne _ _ notWritten.2).trans (setReg_reg_of_ne _ _ _ _ notWritten.1)
  case ldi | add | sub | mul | div => exact setReg_reg_of_ne _ _ _ _ notWritten

/-- An instruction that completes and does not write pc itself moves it behind its operands, as a 9-bit word. -/
theorem Completes.pc_eq (h : Completes s i t) (notHlt : i ≠ .hlt)
    (autoAdvance : Laws.OpcodeFields.setsPcClass i = false) : t.pc = s.pc + BitVec.ofNat 9 (i.operands.length + 1) := by
  cases h with
  | hlt => exact absurd rfl notHlt
  | ret | call | jmp | jeqTaken | jeqNotTaken | jneTaken | jneNotTaken => cases autoAdvance
  | _ => rfl

/-- A 9-bit pc that a fetch succeeded at does not wrap when it is advanced behind an instruction. -/
theorem toNat_add_ofNat {pc : PcWord} {n : Nat} (pc_le : pc.toNat ≤ 253) (n_le : n ≤ 3) :
    (pc + BitVec.ofNat 9 n).toNat = pc.toNat + n := by
  rw [BitVec.toNat_add, BitVec.toNat_ofNat]
  omega

/-- A completed instruction leaves pc in its range (10_state.md R14). -/
theorem Completes.pc_le (h : Completes s i t) (pc_le : s.pc.toNat ≤ 253) : t.pc.toNat ≤ 256 := by
  have jumped (v : Byte) : (zext9 v).toNat ≤ 256 := (zext9_toNat v).trans_le v.isLt.le
  have advanced (n : Nat) (n_le : n ≤ 3) : (s.pc + BitVec.ofNat 9 n).toNat ≤ 256 := by
    rw [toNat_add_ofNat pc_le n_le]; omega
  cases h with
  | hlt => exact pc_le.trans (by decide)
  | ret | call | jmp | jeqTaken | jneTaken => exact jumped _
  | _ => exact advanced _ (by decide)

/-- Settles O38: a taken fault leaves the core FAULTED, and of the completed instructions only HLT leaves the run state
other than RUNNING, by `Completes.run_cases`. -/
theorem onlyHltHalts : Obligations.OnlyHltHalts := by
  unfold Obligations.OnlyHltHalts
  intro i s t running next halted
  rcases exec_next next with done | ⟨c, rfl⟩
  · rcases done.run_cases with ⟨isHlt, -⟩ | same
    · exact isHlt
    · cases (halted.symm.trans same).trans running
  · cases halted

/-- Settles O41, from `exec_next` and `Completes.out_cases`; a taken fault keeps the output. -/
theorem outputOnlyGrowsByPrn : Obligations.OutputOnlyGrowsByPrn := by
  unfold Obligations.OutputOnlyGrowsByPrn
  intro i s t next
  rcases exec_next next with done | ⟨c, rfl⟩
  · exact done.out_cases
  · exact .inl (takeFault_out s c)

/-- Settles O53, from `exec_next` and `Completes.reg_eq`; a taken fault keeps every register. -/
theorem onlyListedRegistersChange : Obligations.OnlyListedRegistersChange := by
  unfold Obligations.OnlyListedRegistersChange
  intro i s t r next notWritten
  rcases exec_next next with done | ⟨c, rfl⟩
  · exact done.reg_eq notWritten
  · exact takeFault_reg s r c

/-- Settles O54: by `Completes.mem_cases` a completed instruction that stores writes one byte, which leaves the others by
`read_write_of_ne`; a taken fault keeps memory. -/
theorem onlyPushAndCallStore : Obligations.OnlyPushAndCallStore := by
  unfold Obligations.OnlyPushAndCallStore
  intro i s t next
  rcases exec_next next with done | ⟨c, rfl⟩
  · rcases done.mem_cases with ⟨stores, mem⟩ | ⟨stores, v, mem⟩
    · exact ⟨fun a isStored => (nomatch stores.symm.trans isStored), fun _ a => by rw [mem]⟩
    · refine ⟨fun a isStored b ne => ?_, fun storesNone => nomatch stores.symm.trans storesNone⟩
      cases stores.symm.trans isStored
      rw [mem, Memory.read_write_of_ne s.mem v ne]
  · exact ⟨fun _ _ _ _ => rfl, fun _ _ => rfl⟩

/-- Settles O55: a fault or a halt would show in the run state, so `Completes.pc_eq` applies, and the 9-bit sum is the sum
of numbers by `toNat_add_ofNat`. -/
theorem autoAdvanceFollowsTheOpcodeBits : Obligations.AutoAdvanceFollowsTheOpcodeBits := by
  unfold Obligations.AutoAdvanceFollowsTheOpcodeBits
  intro i s t _ pc_le autoAdvance next running
  rcases exec_next next with done | ⟨c, rfl⟩
  · have notHlt : i ≠ .hlt := by
      rintro rfl
      cases done
      cases running
    obtain ⟨count, -, setsPc_eq⟩ := opcodeFields i
    have atMostTwo := operands_length_le i
    rw [done.pc_eq notHlt (setsPc_eq.symm.trans autoAdvance), toNat_add_ofNat pc_le (by omega), count, Nat.add_assoc]
  · cases running

end Sys2Proof.Machine
end

section
/-! SUPPORT. Which fault an instruction raises: `instructionFault`, the table of 60_exceptions.md R147, is what exec does, and
the statements about faults of single instructions. -/

namespace Sys2Proof.Machine

/-! ### The table's entries -/

theorem badRegister_of_ge {b : Byte} (h : 8 ≤ b.toNat) : badRegister b = some (.outOfBoundsReg b) := if_pos h

theorem badRegister_of_lt {b : Byte} (h : b.toNat < 8) : badRegister b = none := if_neg (Nat.not_le_of_lt h)

theorem badRegister_eq_some {b : Byte} {c : FaultRecord} (h : badRegister b = some c) :
    8 ≤ b.toNat ∧ c = .outOfBoundsReg b := by
  rcases Nat.lt_or_ge b.toNat 8 with lt | ge
  · cases (badRegister_of_lt lt).symm.trans h
  · cases (badRegister_of_ge ge).symm.trans h
    exact ⟨ge, rfl⟩

theorem badRegister_eq_none {b : Byte} (h : badRegister b = none) : ∃ i, b = regByte i := by
  rcases regByte_cases b with register | ge
  · exact register
  · cases (badRegister_of_ge ge).symm.trans h

theorem firstFault_cons_eq_some {o : Option FaultRecord} {rest : List (Option FaultRecord)} {c : FaultRecord} :
    firstFault (o :: rest) = some c ↔ o = some c ∨ o = none ∧ firstFault rest = some c := by
  cases o <;> simp [firstFault]

theorem firstFault_cons_eq_none {o : Option FaultRecord} {rest : List (Option FaultRecord)} :
    firstFault (o :: rest) = none ↔ o = none ∧ firstFault rest = none := by
  cases o <;> simp [firstFault]

theorem zeroDivisor_of_eq {s : State} {j : Fin 8} (zero : s.reg j = 0#8) :
    zeroDivisor s (regByte j) = some (.divisionByZero s.pc.toNat) := if_pos ⟨j, rfl, zero⟩

theorem zeroDivisor_eq_some {s : State} {b : Byte} {c : FaultRecord} (h : zeroDivisor s b = some c) :
    c = .divisionByZero s.pc.toNat ∧ ∃ j, b = regByte j ∧ s.reg j = 0#8 := by
  unfold zeroDivisor at h
  split at h
  · next divisor => cases h; exact ⟨rfl, divisor⟩
  · cases h

/-! ### The instruction's answer -/

variable {s : State}

/-- The operand checks of a pair, operand a first (41_alu.md R96). -/
theorem readRegPair_of_fault {a b : Byte} {c : FaultRecord} (h : firstFault [badRegister a, badRegister b] = some c) :
    readRegPair s a b = .error c := by
  rcases firstFault_cons_eq_some.1 h with badA | ⟨goodA, later⟩
  · obtain ⟨ge, rfl⟩ := badRegister_eq_some badA
    exact readRegPair_of_ge_left ge
  · obtain ⟨i, rfl⟩ := badRegister_eq_none goodA
    rcases firstFault_cons_eq_some.1 later with badB | ⟨-, noMore⟩
    · obtain ⟨ge, rfl⟩ := badRegister_eq_some badB
      exact readRegPair_of_ge_right ge
    · cases noMore

theorem arithmetic_of_fault {op : Byte → Byte → Raises Byte} {a b : Byte} {c : FaultRecord}
    (h : firstFault [badRegister a, badRegister b] = some c) : arithmetic op a b s = .error c := by
  simp only [arithmetic, readRegPair_of_fault h]; rfl

/-- DIV's two operand checks come before its divisor is looked at. -/
theorem arithmetic_quotient_of_fault {a b : Byte} {c : FaultRecord}
    (h : firstFault [badRegister a, badRegister b, zeroDivisor s b] = some c) :
    arithmetic (quotient s.pc) a b s = .error c := by
  rcases firstFault_cons_eq_some.1 h with badA | ⟨goodA, later⟩
  · exact arithmetic_of_fault (firstFault_cons_eq_some.2 (.inl badA))
  · rcases firstFault_cons_eq_some.1 later with badB | ⟨-, last⟩
    · exact arithmetic_of_fault (firstFault_cons_eq_some.2 (.inr ⟨goodA, firstFault_cons_eq_some.2 (.inl badB)⟩))
    · rcases firstFault_cons_eq_some.1 last with zero | ⟨-, noMore⟩
      · obtain ⟨i, rfl⟩ := badRegister_eq_none goodA
        obtain ⟨rfl, j, rfl, isZero⟩ := zeroDivisor_eq_some zero
        rw [arithmetic_regByte, isZero, quotient_zero]; rfl
      · cases noMore

/-- The table's fault is taken, and nothing else changes. -/
theorem exec_of_instructionFault {i : Instr} {c : FaultRecord} (h : instructionFault s i = some c) :
    exec i s = .next (s.takeFault c) := by
  cases i with
  | hlt | ret => cases h
  | push r => obtain ⟨ge, rfl⟩ := badRegister_eq_some h; simp only [exec, execPush, regIndex_of_ge ge]; rfl
  | pop r => obtain ⟨ge, rfl⟩ := badRegister_eq_some h; simp only [exec, execPop, regIndex_of_ge ge]; rfl
  | prn r => obtain ⟨ge, rfl⟩ := badRegister_eq_some h; simp only [exec, execPrn, readReg_of_ge ge]; rfl
  | call r => obtain ⟨ge, rfl⟩ := badRegister_eq_some h; simp only [exec, execCall, regIndex_of_ge ge]; rfl
  | jmp r => obtain ⟨ge, rfl⟩ := badRegister_eq_some h; simp only [exec, execJmp, jumpToRegister_of_ge ge, commit_error]
  | jeq r =>
    obtain ⟨taken, bad⟩ : flE s.fl = true ∧ badRegister r = some c := by simpa [instructionFault] using h
    obtain ⟨ge, rfl⟩ := badRegister_eq_some bad
    simp only [exec, execJeq, taken, branch_true, jumpToRegister_of_ge ge, commit_error]
  | jne r =>
    obtain ⟨taken, bad⟩ : flE s.fl = false ∧ badRegister r = some c := by simpa [instructionFault] using h
    obtain ⟨ge, rfl⟩ := badRegister_eq_some bad
    simp only [exec, execJne, taken, Bool.not_false, branch_true, jumpToRegister_of_ge ge, commit_error]
  | ldi r v => obtain ⟨ge, rfl⟩ := badRegister_eq_some h; simp only [exec, execLdi, writeReg_of_ge ge]; rfl
  | add a b => simp only [exec, execAdd, arithmetic_of_fault h, commit_error]
  | sub a b => simp only [exec, execSub, arithmetic_of_fault h, commit_error]
  | mul a b => simp only [exec, execMul, arithmetic_of_fault h, commit_error]
  | div a b => simp only [exec, execDiv, arithmetic_quotient_of_fault h, commit_error]
  | cmp a b => simp only [exec, execCmp, readRegPair_of_fault h]; rfl

/-- The two registers of an ALU instruction that raises nothing. -/
theorem registers_of_firstFault_eq_none {a b : Byte} {rest : List (Option FaultRecord)}
    (h : firstFault (badRegister a :: badRegister b :: rest) = none) :
    (∃ i, a = regByte i) ∧ (∃ j, b = regByte j) ∧ firstFault rest = none := by
  obtain ⟨goodA, later⟩ := firstFault_cons_eq_none.1 h
  obtain ⟨goodB, last⟩ := firstFault_cons_eq_none.1 later
  exact ⟨badRegister_eq_none goodA, badRegister_eq_none goodB, last⟩

/-- An instruction for which the table has no fault completes. -/
theorem completes_of_instructionFault_eq_none {i : Instr} (h : instructionFault s i = none) : ∃ t, Completes s i t := by
  cases i with
  | hlt => exact ⟨_, .hlt⟩
  | ret => exact ⟨_, .ret⟩
  | push r => obtain ⟨i, rfl⟩ := badRegister_eq_none h; exact ⟨_, .push i⟩
  | pop r => obtain ⟨i, rfl⟩ := badRegister_eq_none h; exact ⟨_, .pop i⟩
  | prn r => obtain ⟨i, rfl⟩ := badRegister_eq_none h; exact ⟨_, .prn i⟩
  | call r => obtain ⟨i, rfl⟩ := badRegister_eq_none h; exact ⟨_, .call i⟩
  | jmp r => obtain ⟨i, rfl⟩ := badRegister_eq_none h; exact ⟨_, .jmp i⟩
  | jeq r =>
    cases e : flE s.fl with
    | false => exact ⟨_, .jeqNotTaken e r⟩
    | true =>
      obtain ⟨i, rfl⟩ : ∃ i, r = regByte i := badRegister_eq_none (by simpa [instructionFault, e] using h)
      exact ⟨_, .jeqTaken e i⟩
  | jne r =>
    cases e : flE s.fl with
    | true => exact ⟨_, .jneNotTaken e r⟩
    | false =>
      obtain ⟨i, rfl⟩ : ∃ i, r = regByte i := badRegister_eq_none (by simpa [instructionFault, e] using h)
      exact ⟨_, .jneTaken e i⟩
  | ldi r v => obtain ⟨i, rfl⟩ := badRegister_eq_none h; exact ⟨_, .ldi i v⟩
  | add a b => obtain ⟨⟨i, rfl⟩, ⟨j, rfl⟩, -⟩ := registers_of_firstFault_eq_none h; exact ⟨_, .add i j⟩
  | sub a b => obtain ⟨⟨i, rfl⟩, ⟨j, rfl⟩, -⟩ := registers_of_firstFault_eq_none h; exact ⟨_, .sub i j⟩
  | mul a b => obtain ⟨⟨i, rfl⟩, ⟨j, rfl⟩, -⟩ := registers_of_firstFault_eq_none h; exact ⟨_, .mul i j⟩
  | div a b =>
    obtain ⟨⟨i, rfl⟩, ⟨j, rfl⟩, divisor⟩ := registers_of_firstFault_eq_none h
    refine ⟨_, .div i j fun zero => ?_⟩
    cases (zeroDivisor_of_eq zero).symm.trans (firstFault_cons_eq_none.1 divisor).1
  | cmp a b => obtain ⟨⟨i, rfl⟩, ⟨j, rfl⟩, -⟩ := registers_of_firstFault_eq_none h; exact ⟨_, .cmp i j⟩

/-! ### Statements about single instructions -/

theorem badRegister_of_valid {r : Byte} (h : validRegister r = true) : badRegister r = none :=
  badRegister_of_lt ((validRegister_iff r).1 h)

/-- The first fault of two valid operands is that of what comes after them. -/
theorem firstFault_of_valid {a b : Byte} (h : (validRegister a && validRegister b) = true)
    (rest : List (Option FaultRecord)) : firstFault (badRegister a :: badRegister b :: rest) = firstFault rest := by
  obtain ⟨validA, validB⟩ := (Bool.and_eq_true _ _).mp h
  rw [badRegister_of_valid validA, badRegister_of_valid validB]; rfl

/-- The table has one fault for well-formed instructions. -/
theorem instructionFault_of_wellFormed {i : Instr} {c : FaultRecord} (wf : i.wellFormed = true)
    (h : instructionFault s i = some c) :
    c = .divisionByZero s.pc.toNat ∧ ∃ a b : Fin 8, i = .div (regByte a) (regByte b) ∧ s.reg b = 0#8 := by
  cases i with
  | hlt | ret => cases h
  | push r | pop r | prn r | call r | jmp r | ldi r => cases (badRegister_of_valid wf).symm.trans h
  | jeq r | jne r =>
    simp only [instructionFault, badRegister_of_valid wf, ite_self] at h
    cases h
  | add a b | sub a b | mul a b | cmp a b => cases (firstFault_of_valid wf []).symm.trans h
  | div a b =>
    obtain ⟨validA, -⟩ := (Bool.and_eq_true _ _).mp wf
    obtain ⟨i, rfl⟩ := badRegister_eq_none (badRegister_of_valid validA)
    have divisor : firstFault [zeroDivisor s b] = some c := (firstFault_of_valid wf _).symm.trans h
    rcases firstFault_cons_eq_some.1 divisor with zero | ⟨-, noMore⟩
    · obtain ⟨rfl, j, rfl, isZero⟩ := zeroDivisor_eq_some zero
      exact ⟨rfl, i, j, rfl, isZero⟩
    · cases noMore

/-- Settles O27: the run state FAULTED is no completed instruction's, so the table has a fault for the instruction, and
`instructionFault_of_wellFormed` says which. -/
theorem wellFormedFaultsOnlyOnAZeroDivisor : Obligations.WellFormedFaultsOnlyOnAZeroDivisor := by
  unfold Obligations.WellFormedFaultsOnlyOnAZeroDivisor
  intro i s t wf before next faulted
  cases h : instructionFault s i with
  | none =>
    obtain ⟨u, done⟩ := completes_of_instructionFault_eq_none h
    cases next.symm.trans (exec_of_completes done)
    exact absurd faulted (done.run_ne_faulted before)
  | some c =>
    cases next.symm.trans (exec_of_instructionFault h)
    obtain ⟨rfl, isDiv⟩ := instructionFault_of_wellFormed wf h
    exact ⟨rfl, isDiv⟩

/-- Settles O28: the table's entry of each of the six instructions is its register operand's. -/
theorem registerIndexAboveSevenFaults : Obligations.RegisterIndexAboveSevenFaults := by
  unfold Obligations.RegisterIndexAboveSevenFaults
  intro r v s ge
  have faults {i : Instr} (entry : instructionFault s i = badRegister r) :
      exec i s = .next (faultedWith s (.outOfBoundsReg r)) :=
    exec_of_instructionFault (entry.trans (badRegister_of_ge ge))
  exact ⟨faults rfl, faults rfl, faults rfl, faults rfl, faults rfl, faults rfl⟩

/-- The table's entry of an ALU instruction begins with operand a and operand b. -/
theorem instructionFault_alu {op : Byte → Byte → Instr} (h : op ∈ [Instr.add, Instr.sub, Instr.mul, Instr.div, Instr.cmp])
    (s : State) (a b : Byte) :
    ∃ rest, instructionFault s (op a b) = firstFault (badRegister a :: badRegister b :: rest) := by
  simp only [List.mem_cons, List.not_mem_nil, or_false] at h
  rcases h with rfl | rfl | rfl | rfl | rfl <;> exact ⟨_, rfl⟩

/-- Settles O29, from `instructionFault_alu`: the first fault of the list is operand a's, and operand b's when a is valid. -/
theorem aluChecksOperandAThenOperandB : Obligations.AluChecksOperandAThenOperandB := by
  unfold Obligations.AluChecksOperandAThenOperandB
  intro op isAluOp a b s
  obtain ⟨rest, entry⟩ := instructionFault_alu isAluOp s a b
  constructor
  · intro ge
    exact exec_of_instructionFault (by rw [entry, badRegister_of_ge ge]; rfl)
  · intro lt ge
    exact exec_of_instructionFault (by rw [entry, badRegister_of_lt lt, badRegister_of_ge ge]; rfl)

end Sys2Proof.Machine
end

section
/-! SUPPORT. The step in each of its cases, and the statements about the fetch, the decoding and the faults of a step
(40_execution_loop.md, 60_exceptions.md sections 2 to 4). -/

namespace Sys2Proof.Machine

variable {s : State}

/-! ### The step's cases -/

theorem step_of_fetch_error {c : FaultRecord} (running : s.run = .running) (failed : fetch s = .error c) :
    step s = .next (s.takeFault c) := by
  simp only [step, running, failed, raise]

theorem step_of_decode_error {f : Fetched} {e : DecodeError} (running : s.run = .running) (fetched : fetch s = .ok f)
    (rejected : decode f.ir f.opa f.opb = .error e) : step s = .next (s.takeFault (.unsupportedOperation f.ir)) := by
  rw [decode_error rejected] at rejected
  simp only [step, running, fetched, rejected, raise]

/-- No instruction is refused and none stops the model. -/
theorem exec_answers (i : Instr) (s : State) : ∃ t, exec i s = .next t := by
  rcases completesOrFaults s i with ⟨t, done⟩ | ⟨c, fault⟩
  · exact ⟨t, exec_of_completes done⟩
  · exact ⟨_, fault⟩

/-- Bytes in memory that begin with an instruction's encoding decode to it. -/
theorem decode_of_read_encode {i : Instr} {m : Memory} {a : Nat}
    (h : ∀ k, k < (encode i).length → Memory.read m (a + k) = (encode i).getD k 0#8) :
    decode (Memory.read m a) (Memory.read m (a + 1)) (Memory.read m (a + 2)) = .ok i := by
  have len := length_encode i
  have atOpcode : Memory.read m a = i.opcode := h 0 (by omega)
  rw [atOpcode]
  exact decode_opcode (take_pair_eq (operands_length_le i) (fun _ => h 1 (by omega)) (fun _ => h 2 (by omega)))

/-- Settles O16, from `fetch_of_le` and `step_of_decode`. -/
theorem stepRunsTheDecodedInstruction : Obligations.StepRunsTheDecodedInstruction := by
  unfold Obligations.StepRunsTheDecodedInstruction
  intro s i running le decoded
  exact step_of_decode running (fetch_of_le le) decoded

/-- Settles O17: the fetched bytes decode to the instruction by `decode_of_read_encode`. -/
theorem stepRunsTheInstructionEncodedAtPc : Obligations.StepRunsTheInstructionEncodedAtPc := by
  unfold Obligations.StepRunsTheInstructionEncodedAtPc
  intro s i running le bytes
  exact step_of_decode running (fetch_of_le le) (decode_of_read_encode bytes)

theorem fetchBase_le (s : State) : (fetchBase s).toNat ≤ 253 := by
  unfold fetchBase
  split
  · assumption
  · decide

theorem decode_of_decodeTableWord {nbits w : Nat} {i : Instr} (h : decodeTableWord nbits w = some i) :
    decode (tableByte nbits w 0) (tableByte nbits w 1) (tableByte nbits w 2) = .ok i := by
  unfold decodeTableWord at h
  split at h
  · next decoded => cases h; exact decoded
  · cases h

/-- The fetch after withFetchWord reads the three bytes of the word. -/
theorem fetch_withFetchWord (wf : Memory.wf s.mem = true) (nbits w : Nat) :
    fetch (s.withFetchWord nbits w) = .ok ⟨tableByte nbits w 0, tableByte nbits w 1, tableByte nbits w 2⟩ := by
  have base := fetchBase_le s
  have byte (k : Nat) (lt : k < 3) : Memory.read (s.withFetchWord nbits w).mem ((fetchBase s).toNat + k) =
      [tableByte nbits w 0, tableByte nbits w 1, tableByte nbits w 2].getD k Memory.unlisted := by
    simp only [State.withFetchWord]
    rw [Memory.read_writeBytes wf (Nat.add_le_add_right base 3), if_pos (by simp only [List.length]; omega),
      Nat.add_sub_cancel_left]
  refine (fetch_of_le (s := s.withFetchWord nbits w) base).trans (congrArg Except.ok ?_)
  exact (Fetched.mk.injEq ..).mpr ⟨byte 0 (by decide), byte 1 (by decide), byte 2 (by decide)⟩

/-- Settles O18: the placed state runs, its fetch reads the word's bytes by `fetch_withFetchWord`, and they decode to the
word's instruction. -/
theorem fetchWordIsTheNextInstruction : Obligations.FetchWordIsTheNextInstruction := by
  unfold Obligations.FetchWordIsTheNextInstruction
  intro s nbits w i wf word
  exact step_of_decode rfl (fetch_withFetchWord wf nbits w) (decode_of_decodeTableWord word)

/-- The failed fetch of a running core: in the range of pc, the first address out of bounds is 256. -/
theorem step_of_pc_ge (running : s.run = .running) (ge : 254 ≤ s.pc.toNat) (le : s.pc.toNat ≤ 256) :
    step s = .next (s.takeFault (.outOfBoundsMem 256)) := by
  rw [step_of_fetch_error running (fetch_of_ge ge), Nat.max_eq_right le]

/-- Settles O19, from `step_of_pc_ge` and `fetch_of_le`. -/
theorem fetchFaultsExactlyAtTheTopOfMemory : Obligations.FetchFaultsExactlyAtTheTopOfMemory := by
  unfold Obligations.FetchFaultsExactlyAtTheTopOfMemory
  intro s running
  exact ⟨step_of_pc_ge running, fun le => ⟨_, fetch_of_le le⟩⟩

/-- Settles O20: the decoder accepts only instructions' opcodes by `opcode_of_decode`, so it rejects the byte, and the step
takes the fault by `step_of_decode_error`. -/
theorem unsupportedOpcodesFault : Obligations.UnsupportedOpcodesFault := by
  unfold Obligations.UnsupportedOpcodesFault
  intro s running le notOpcode
  have fetched := fetch_of_le le
  cases h : decode (Memory.read s.mem s.pc.toNat) (Memory.read s.mem (s.pc.toNat + 1))
      (Memory.read s.mem (s.pc.toNat + 2)) with
  | ok i => exact absurd (opcode_of_decode h ▸ opcode_mem_opcodeBytes i) notOpcode
  | error e => exact step_of_decode_error running fetched h

/-- Settles O21: the two stops are the step's first two cases, and a run ends at a stop. -/
theorem stoppedCoreHasNoStep : Obligations.StoppedCoreHasNoStep := by
  unfold Obligations.StoppedCoreHasNoStep
  intro s
  have halted (h : s.run = .halted) : step s = .fault .coreHalted := by simp only [step, h]
  have faulted (h : s.run = .faulted) : step s = .fault .coreFaulted := by simp only [step, h]
  refine ⟨halted, faulted, fun stopped k => ?_⟩
  cases k with
  | zero => rfl
  | succ k =>
    cases h : s.run with
    | running => exact absurd h stopped
    | halted => simp only [runMachine, halted h]
    | faulted => simp only [runMachine, faulted h]

/-- Settles O22: a failed fetch and a rejected opcode are taken faults, and an instruction answers by `exec_answers`. -/
theorem runningCoreAlwaysHasANextState : Obligations.RunningCoreAlwaysHasANextState := by
  unfold Obligations.RunningCoreAlwaysHasANextState
  intro s running
  cases fetched : fetch s with
  | error c => exact ⟨_, step_of_fetch_error running fetched⟩
  | ok f =>
    cases decoded : decode f.ir f.opa f.opb with
    | error e => exact ⟨_, step_of_decode_error running fetched decoded⟩
    | ok i => exact step_of_decode running fetched decoded ▸ exec_answers i s

/-! ### The fault of a step -/

/-- Everything a step can do, by its fault: it takes one, or it is an instruction that completes. -/
theorem step_cases {t : State} (h : step s = .next t) :
    (∃ c, t = s.takeFault c) ∨ s.run = .running ∧ s.pc.toNat ≤ 253 ∧ ∃ i, Completes s i t := by
  obtain ⟨running, ⟨-, rfl⟩ | ⟨le, _, _, _, -, -, -, ⟨op, -, rfl⟩ | ⟨i, -, next⟩⟩⟩ := step_next h
  · exact .inl ⟨_, rfl⟩
  · exact .inl ⟨_, rfl⟩
  · rcases exec_next next with done | fault
    · exact .inr ⟨running, le, i, done⟩
    · exact .inl fault

/-- Settles O26: a taken fault is that record and nothing else, and an instruction that completes does not end FAULTED. -/
theorem faultsChangeNothingElse : Obligations.FaultsChangeNothingElse := by
  unfold Obligations.FaultsChangeNothingElse
  intro s t next faulted
  rcases step_cases next with ⟨c, rfl⟩ | ⟨running, -, i, done⟩
  · exact ⟨Option.some_ne_none c, rfl⟩
  · exact absurd faulted (done.run_ne_faulted (by rw [running]; decide))

theorem stepFault_of_pc_ge (ge : 254 ≤ s.pc.toNat) : stepFault s = some (.outOfBoundsMem 256) := if_pos ge

theorem stepFault_of_decode {f : Fetched} {i : Instr} (le : s.pc.toNat ≤ 253) (fetched : fetch s = .ok f)
    (decoded : decode f.ir f.opa f.opb = .ok i) : stepFault s = instructionFault s i := by
  cases (fetch_of_le le).symm.trans fetched
  simp only [stepFault, if_neg (show ¬254 ≤ s.pc.toNat by omega), decoded]

theorem stepFault_of_decode_error {f : Fetched} {e : DecodeError} (le : s.pc.toNat ≤ 253) (fetched : fetch s = .ok f)
    (rejected : decode f.ir f.opa f.opb = .error e) : stepFault s = some (.unsupportedOperation f.ir) := by
  cases (fetch_of_le le).symm.trans fetched
  rw [decode_error rejected] at rejected
  simp only [stepFault, if_neg (show ¬254 ≤ s.pc.toNat by omega), rejected]

/-- A step of a running core by the priority list: it takes the list's fault, or the list has none and the step is an
instruction that completes. For a decoded instruction the list's entry is the table's. -/
theorem step_by_stepFault (running : s.run = .running) (pc_range : s.pc.toNat ≤ 256) :
    (∃ c, stepFault s = some c ∧ step s = .next (s.takeFault c)) ∨
      stepFault s = none ∧ ∃ i t, Completes s i t ∧ step s = .next t := by
  rcases Nat.lt_or_ge 253 s.pc.toNat with hi | lo
  · exact .inl ⟨_, stepFault_of_pc_ge hi, step_of_pc_ge running hi pc_range⟩
  · have fetched := fetch_of_le lo
    cases decoded : decode (Memory.read s.mem s.pc.toNat) (Memory.read s.mem (s.pc.toNat + 1))
        (Memory.read s.mem (s.pc.toNat + 2)) with
    | error e =>
      exact .inl ⟨_, stepFault_of_decode_error lo fetched decoded, step_of_decode_error running fetched decoded⟩
    | ok i =>
      rw [stepFault_of_decode lo fetched decoded, step_of_decode running fetched decoded]
      cases entry : instructionFault s i with
      | some c => exact .inl ⟨c, rfl, exec_of_instructionFault entry⟩
      | none =>
        obtain ⟨t, done⟩ := completes_of_instructionFault_eq_none entry
        exact .inr ⟨rfl, i, t, done, exec_of_completes done⟩

theorem Inv.fault_eq_none (inv : Inv s) (running : s.run = .running) : s.fault = none := by
  simpa [running] using inv.record

/-- Settles O25, from `step_by_stepFault`; an instruction that completes does not end FAULTED and keeps the record, which the
invariant says is empty in a running core. -/
theorem stepRaisesTheFirstFaultOfTheList : Obligations.StepRaisesTheFirstFaultOfTheList := by
  unfold Obligations.StepRaisesTheFirstFaultOfTheList
  intro s inv running
  rcases step_by_stepFault running inv.pc_range with ⟨c, listed, taken⟩ | ⟨noFault, i, t, done, next⟩
  · constructor
    · intro c' listed'
      cases listed.symm.trans listed'
      exact taken
    · intro noFault
      cases listed.symm.trans noFault
  · constructor
    · intro c listed
      cases noFault.symm.trans listed
    · intro _
      exact ⟨t, next, done.run_ne_faulted (by rw [running]; decide), done.fault_eq.trans (inv.fault_eq_none running)⟩

end Sys2Proof.Machine
end

section
/-! SUPPORT. The invariant: it holds after reset and every load, a taken fault keeps it, and so does every instruction that
completes (10_state.md sections 3 to 5 and 8). -/

namespace Sys2Proof.Machine

variable {s t : State} {i : Instr}

theorem Inv.takeFault (inv : Inv s) (c : FaultRecord) : Inv (s.takeFault c) where
  memory := inv.memory
  pc_range := inv.pc_range
  flags := inv.flags
  record := by simp only [takeFault_run, takeFault_fault, Option.isSome_some]

/-- A comparison sets exactly one of E, G and L (41_alu.md R95). -/
theorem compareFlags_cases (va vb : Byte) :
    compareFlags va vb = 0x01#8 ∨ compareFlags va vb = 0x02#8 ∨ compareFlags va vb = 0x04#8 := by
  unfold compareFlags
  split
  · exact .inl rfl
  · split
    · exact .inr (.inl rfl)
    · exact .inr (.inr rfl)

theorem Completes.wf (h : Completes s i t) (wf : Memory.wf s.mem = true) : Memory.wf t.mem = true := by
  rcases h.mem_cases with ⟨-, mem⟩ | ⟨-, v, mem⟩
  · rw [mem]; exact wf
  · rw [mem]; exact Memory.wf_write wf (stackAddr_lt _) v

theorem Completes.flags (h : Completes s i t) (before : s.fl = 0x00#8 ∨ s.fl = 0x01#8 ∨ s.fl = 0x02#8 ∨ s.fl = 0x04#8) :
    t.fl = 0x00#8 ∨ t.fl = 0x01#8 ∨ t.fl = 0x02#8 ∨ t.fl = 0x04#8 := by
  cases h with
  | cmp i j => exact .inr (compareFlags_cases _ _)
  | _ => exact before

theorem Completes.inv (h : Completes s i t) (inv : Inv s) (running : s.run = .running) (le : s.pc.toNat ≤ 253) :
    Inv t where
  memory := h.wf inv.memory
  pc_range := h.pc_le le
  flags := h.flags inv.flags
  record := by
    have notFaulted := h.run_ne_faulted (by rw [running]; decide)
    have noRecord : t.fault = none := h.fault_eq.trans (inv.fault_eq_none running)
    simp [notFaulted, noRecord]

/-- Settles O23: by `step_cases` the step takes a fault, which keeps the invariant by `Inv.takeFault`, or is an instruction
that completes, which keeps it by `Completes.inv`. -/
theorem stepKeepsTheInvariant : Obligations.StepKeepsTheInvariant := by
  unfold Obligations.StepKeepsTheInvariant
  intro s t inv next
  rcases step_cases next with ⟨c, rfl⟩ | ⟨running, le, i, done⟩
  · exact inv.takeFault c
  · exact done.inv inv running le

theorem inv_reset : Inv State.reset where
  memory := wf_reset
  pc_range := by decide
  flags := .inl rfl
  record := by decide

/-- Settles O24: a load changes memory only, and keeps its canonical form by `wf_load`. -/
theorem invariantHoldsAfterResetAndLoad : Obligations.InvariantHoldsAfterResetAndLoad := by
  unfold Obligations.InvariantHoldsAfterResetAndLoad
  refine ⟨inv_reset, fun image t loaded => ?_⟩
  have wf := wf_load wf_reset loaded
  obtain ⟨-, rfl⟩ := load_ok loaded
  exact ⟨wf, inv_reset.pc_range, inv_reset.flags, inv_reset.record⟩

end Sys2Proof.Machine
end

section
/-! SUPPORT. The statements about the ALU, the system, load and output instructions, and the jumps (41_alu.md,
42_system_load_output.md, 44_control_transfer.md): each names the case of `Completes` that the instruction is, and takes what
stays the same from the frame of the update that case makes. -/

namespace Sys2Proof.Machine

variable {s t : State}

/-! ### The frames of the three updates -/

/-- What one register write and an advance leave unchanged, and where pc goes. -/
theorem setReg_advance_frame {i : Fin 8} {v : Byte} {n : Nat} (h : t = (s.setReg i v).advance n) :
    SameRegsExcept [i] s t ∧ t.pc = s.pc + BitVec.ofNat 9 n ∧ t.fl = s.fl ∧ SameMemory s t ∧ t.out = s.out ∧
      SameRun s t := by
  subst h
  exact ⟨fun r other => setReg_reg_of_ne s i r v (mt List.mem_singleton.2 other), rfl, rfl, fun _ => rfl, rfl, rfl, rfl⟩

/-- What a jump leaves unchanged, and where pc goes. -/
theorem jump_frame {v : Byte} (h : t = s.jump v) :
    t.pc.toNat = v.toNat ∧ SameRegsExcept [] s t ∧ t.fl = s.fl ∧ SameMemory s t ∧ t.out = s.out ∧ SameRun s t := by
  subst h
  exact ⟨zext9_toNat v, fun _ _ => rfl, rfl, fun _ => rfl, rfl, rfl, rfl⟩

/-- What an advance alone leaves unchanged, and where pc goes. -/
theorem advance_frame {n : Nat} (h : t = s.advance n) :
    t.pc = s.pc + BitVec.ofNat 9 n ∧ SameRegsExcept [] s t ∧ t.fl = s.fl ∧ SameMemory s t ∧ t.out = s.out ∧
      SameRun s t := by
  subst h
  exact ⟨rfl, fun _ _ => rfl, rfl, fun _ => rfl, rfl, rfl, rfl⟩

/-! ### The ALU -/

theorem toNat_setReg_advance (s : State) (i : Fin 8) (v : Byte) (n : Nat) :
    (((s.setReg i v).advance n).reg i).toNat = v.toNat :=
  congrArg BitVec.toNat (setReg_reg_self s i v)

/-- Settles O31, from `Completes.add`. -/
theorem addWritesTheSumModulo256 : Obligations.AddWritesTheSumModulo256 := by
  unfold Obligations.AddWritesTheSumModulo256
  intro a b s
  have sum := (toNat_setReg_advance s a (s.reg a + s.reg b) 3).trans (BitVec.toNat_add _ _)
  exact ⟨_, exec_of_completes (.add a b), sum, setReg_advance_frame rfl⟩

/-- The difference of two bytes is the difference of their numbers modulo 256. -/
theorem toNat_sub_eq_emod (va vb : Byte) : ((va - vb).toNat : Int) = ((va.toNat : Int) - (vb.toNat : Int)) % 256 := by
  have la := va.isLt
  have lb := vb.isLt
  rw [BitVec.toNat_sub]
  omega

/-- Settles O32, from `Completes.sub` and `toNat_sub_eq_emod`. -/
theorem subWritesTheDifferenceModulo256 : Obligations.SubWritesTheDifferenceModulo256 := by
  unfold Obligations.SubWritesTheDifferenceModulo256
  intro a b s
  refine ⟨_, exec_of_completes (.sub a b), ?_, setReg_advance_frame rfl⟩
  rw [toNat_setReg_advance, toNat_sub_eq_emod]

/-- Settles O33, from `Completes.mul`. -/
theorem mulWritesTheProductModulo256 : Obligations.MulWritesTheProductModulo256 := by
  unfold Obligations.MulWritesTheProductModulo256
  intro a b s
  have product := (toNat_setReg_advance s a (s.reg a * s.reg b) 3).trans (BitVec.toNat_mul _ _)
  exact ⟨_, exec_of_completes (.mul a b), product, setReg_advance_frame rfl⟩

/-- Settles O34: with a nonzero divisor from `Completes.div`, with zero it is the table's fault of two valid operands. -/
theorem divWritesTheQuotientOrFaultsOnZero : Obligations.DivWritesTheQuotientOrFaultsOnZero := by
  unfold Obligations.DivWritesTheQuotientOrFaultsOnZero
  intro a b s
  constructor
  · intro nonzero
    have quotient := (toNat_setReg_advance s a (s.reg a / s.reg b) 3).trans BitVec.toNat_udiv
    exact ⟨_, exec_of_completes (.div a b nonzero), quotient, setReg_advance_frame rfl⟩
  · intro zero
    have valid (i : Fin 8) : badRegister (regByte i) = none := badRegister_of_lt ((regByte_toNat i).trans_lt i.isLt)
    refine exec_of_instructionFault ?_
    simp only [instructionFault, valid, zeroDivisor_of_eq zero, firstFault]

theorem compareFlags_of_eq {va vb : Byte} (h : va.toNat = vb.toNat) : compareFlags va vb = 0x01#8 :=
  if_pos (BitVec.eq_of_toNat_eq h)

theorem compareFlags_of_gt {va vb : Byte} (h : vb.toNat < va.toNat) : compareFlags va vb = 0x02#8 := by
  have ne : va ≠ vb := fun e => h.ne' (congrArg BitVec.toNat e)
  rw [compareFlags, if_neg ne, if_pos h]

theorem compareFlags_of_lt {va vb : Byte} (h : va.toNat < vb.toNat) : compareFlags va vb = 0x04#8 := by
  have ne : va ≠ vb := fun e => h.ne (congrArg BitVec.toNat e)
  rw [compareFlags, if_neg ne, if_neg h.asymm]

/-- Settles O35, from `Completes.cmp` and the three values of `compareFlags`. -/
theorem cmpRecomputesTheFlags : Obligations.CmpRecomputesTheFlags := by
  unfold Obligations.CmpRecomputesTheFlags
  intro a b s
  exact ⟨_, exec_of_completes (.cmp a b), compareFlags_of_eq, compareFlags_of_gt, compareFlags_of_lt,
    fun _ _ => rfl, rfl, fun _ => rfl, rfl, rfl, rfl⟩

/-! ### System, load and output -/

/-- Settles O37, from `Completes.hlt`: `halt` updates the run state alone. -/
theorem hltHaltsAndChangesNothingElse : Obligations.HltHaltsAndChangesNothingElse := by
  unfold Obligations.HltHaltsAndChangesNothingElse
  intro s
  exact ⟨_, exec_of_completes .hlt, halt_run s, halt_fault s, fun r _ => halt_reg s r, halt_pc s, halt_fl s,
    fun _ => rfl, halt_out s⟩

/-- Settles O39, from `Completes.ldi`. -/
theorem ldiLoadsTheImmediate : Obligations.LdiLoadsTheImmediate := by
  unfold Obligations.LdiLoadsTheImmediate
  intro r v s
  exact ⟨_, exec_of_completes (.ldi r v), setReg_reg_self s r v, setReg_advance_frame rfl⟩

/-- Settles O40, from `Completes.prn`: `emit` updates the output alone. -/
theorem prnAppendsTheRegister : Obligations.PrnAppendsTheRegister := by
  unfold Obligations.PrnAppendsTheRegister
  intro r s
  exact ⟨_, exec_of_completes (.prn r), emit_out s (s.reg r), fun _ _ => rfl, rfl, rfl, fun _ => rfl, rfl, rfl⟩

/-! ### Jumps -/

/-- Settles O50, from `Completes.jmp`. -/
theorem jmpLoadsThePc : Obligations.JmpLoadsThePc := by
  unfold Obligations.JmpLoadsThePc
  intro r s
  exact ⟨_, exec_of_completes (.jmp r), jump_frame rfl⟩

/-- Settles O51: taken from `Completes.jeqTaken` or, without a register, the table's fault; not taken from
`Completes.jeqNotTaken`, which holds of every operand byte. -/
theorem jeqJumpsExactlyWhenEqual : Obligations.JeqJumpsExactlyWhenEqual := by
  unfold Obligations.JeqJumpsExactlyWhenEqual
  intro s
  refine ⟨fun equal r => ?_, fun equal b ge => ?_, fun unequal b => ?_⟩
  · exact ⟨_, exec_of_completes (.jeqTaken equal r), jump_frame rfl⟩
  · exact exec_of_instructionFault ((if_pos equal).trans (badRegister_of_ge ge))
  · exact ⟨_, exec_of_completes (.jeqNotTaken unequal b), advance_frame rfl⟩

/-- Settles O52, as O51 with the cases of JNE. -/
theorem jneJumpsExactlyWhenNotEqual : Obligations.JneJumpsExactlyWhenNotEqual := by
  unfold Obligations.JneJumpsExactlyWhenNotEqual
  intro s
  refine ⟨fun unequal r => ?_, fun unequal b ge => ?_, fun equal b => ?_⟩
  · exact ⟨_, exec_of_completes (.jneTaken unequal r), jump_frame rfl⟩
  · have notTaken : ¬flE s.fl = true := Bool.eq_false_iff.1 unequal
    exact exec_of_instructionFault ((if_neg notTaken).trans (badRegister_of_ge ge))
  · exact ⟨_, exec_of_completes (.jneNotTaken equal b), advance_frame rfl⟩

end Sys2Proof.Machine
end

section
/-! SUPPORT. The canonical form of memory determines the data, and the statements about the host's side: reset, load,
status port, console (20_memory.md section 1, 10_state.md sections 5 and 8, 60_exceptions.md R145,
70_reset_and_hazards.md R176). -/

namespace Sys2Proof.Machine

/-! ### Canonical memories -/

/-- The first cell of a canonical list is the lowest address that does not read as the unlisted byte. -/
theorem Memory.head_le_of_read_eq {m n : Memory} {lo lo' a b : Nat} {v w : Byte}
    (wfm : Memory.wfFrom lo ((a, v) :: m) = true) (wfn : Memory.wfFrom lo' ((b, w) :: n) = true)
    (same : Memory.read ((a, v) :: m) a = Memory.read ((b, w) :: n) a) : b ≤ a := by
  obtain ⟨-, -, listed, -⟩ := (Memory.wfFrom_cons ..).1 wfm
  obtain ⟨-, lt, nonzero, wfn'⟩ := (Memory.wfFrom_cons ..).1 wfn
  by_contra gt
  have fromHead : Memory.wfFrom b ((b, w) :: n) = true := (Memory.wfFrom_cons ..).2 ⟨le_rfl, lt, nonzero, wfn'⟩
  rw [Memory.read_of_lt fromHead (by omega), Memory.read, if_pos rfl] at same
  exact listed same

/-- Canonical lists that read the same are the same list, cell by cell. -/
theorem Memory.eq_of_read_eq {m n : Memory} {lo lo' : Nat} (wfm : Memory.wfFrom lo m = true)
    (wfn : Memory.wfFrom lo' n = true) (same : ∀ a, a < 256 → Memory.read m a = Memory.read n a) : m = n := by
  induction m generalizing n lo lo' with
  | nil =>
    cases n with
    | nil => rfl
    | cons cell n =>
      obtain ⟨b, w⟩ := cell
      obtain ⟨-, lt, listed, -⟩ := (Memory.wfFrom_cons ..).1 wfn
      have := same b lt
      rw [Memory.read, Memory.read, if_pos rfl] at this
      exact absurd this.symm listed
  | cons cell m ih =>
    obtain ⟨a, v⟩ := cell
    obtain ⟨-, lt, listed, wfm'⟩ := (Memory.wfFrom_cons ..).1 wfm
    cases n with
    | nil =>
      have := same a lt
      rw [Memory.read, Memory.read, if_pos rfl] at this
      exact absurd this listed
    | cons cell n =>
      obtain ⟨b, w⟩ := cell
      obtain ⟨-, lt', -, wfn'⟩ := (Memory.wfFrom_cons ..).1 wfn
      obtain rfl : a = b :=
        Nat.le_antisymm (head_le_of_read_eq wfn wfm (same b lt').symm) (head_le_of_read_eq wfm wfn (same a lt))
      have heads : v = w := by simpa [Memory.read] using same a lt
      have tails : m = n := by
        refine ih wfm' wfn' fun c c_lt => ?_
        rcases Nat.lt_or_ge c (a + 1) with below | above
        · rw [Memory.read_of_lt wfm' below, Memory.read_of_lt wfn' below]
        · have ne : c ≠ a := by omega
          simpa [Memory.read, ne] using same c c_lt
      rw [heads, tails]

/-- Settles O9, from `Memory.eq_of_read_eq`. -/
theorem canonicalMemoriesAreEqualWhenTheyReadTheSame : Obligations.CanonicalMemoriesAreEqualWhenTheyReadTheSame := by
  unfold Obligations.CanonicalMemoriesAreEqualWhenTheyReadTheSame
  intro m n wfm wfn same
  exact Memory.eq_of_read_eq wfm wfn fun a lt => same a (Nat.le_of_lt_succ lt)

/-! ### Reset, load, status port -/

theorem reset_reg_of_ne {r : Fin 8} (h : r ≠ 7) : State.reset.reg r = 0x00#8 := by
  revert r; decide

/-- Settles O11: a load changes memory alone by `load_ok`, so the values after it are those of reset. -/
theorem firstStepStartsFromTheResetValues : Obligations.FirstStepStartsFromTheResetValues := by
  unfold Obligations.FirstStepStartsFromTheResetValues
  rintro s (rfl | ⟨image, loaded⟩)
  · exact ⟨fun _ => reset_reg_of_ne, rfl, rfl, rfl, rfl, rfl, rfl⟩
  · obtain ⟨-, rfl⟩ := load_ok loaded
    exact ⟨fun _ => reset_reg_of_ne, rfl, rfl, rfl, rfl, rfl, rfl⟩

/-- Settles O13: the load's length check fails. -/
theorem longImageIsRefused : Obligations.LongImageIsRefused := by
  unfold Obligations.LongImageIsRefused
  intro s image tooLong
  exact if_neg (Nat.not_le_of_lt tooLong)

theorem status_of_no_fault {s : State} (h : s.fault = none) : s.statusCode = 0 ∧ s.statusInfo = 0 := by
  simp only [State.statusCode, State.statusInfo, h, Option.map_none, Option.getD_none, and_self]

/-- After a fault is taken the status port reads its code and its information value. -/
theorem status_faultedWith (s : State) (c : FaultRecord) :
    (faultedWith s c).statusCode = c.code ∧ (faultedWith s c).statusInfo = c.info := ⟨rfl, rfl⟩

/-- Settles O30, from `status_of_no_fault` and `status_faultedWith`. -/
theorem statusPortReportsTheFault : Obligations.StatusPortReportsTheFault := by
  unfold Obligations.StatusPortReportsTheFault
  intro s
  exact ⟨status_of_no_fault, fun op => status_faultedWith s (.unsupportedOperation op),
    fun a => status_faultedWith s (.divisionByZero a), fun a => status_faultedWith s (.outOfBoundsMem a),
    fun i => status_faultedWith s (.outOfBoundsReg i)⟩

/-! ### The console -/

/-- A decimal numeral begins with 0 only for the number 0. -/
theorem eq_zero_of_toDigits_head {n : Nat} (h : (Nat.toDigits 10 n).head? = some '0') : n = 0 := by
  induction n using Nat.strong_induction_on with
  | _ n ih =>
    rw [Nat.toDigits_eq_if (by decide)] at h
    split at h
    · next lt =>
      have digit (d : Fin 10) : some d.val.digitChar = some '0' → d.val = 0 := by revert d; decide
      exact digit ⟨n, lt⟩ h
    · next ge =>
      rw [List.head?_append_of_ne_nil _ Nat.toDigits_ne_nil] at h
      have := ih (n / 10) (by omega) h
      omega

/-- Settles O42: the digits are `Nat.toDigits`, which the library says are digits with the number's value, and by
`eq_zero_of_toDigits_head` they begin with 0 only for 0. -/
theorem outputIsRenderedInDecimal : Obligations.OutputIsRenderedInDecimal := by
  unfold Obligations.OutputIsRenderedInDecimal
  intro v
  refine ⟨Nat.toDigits 10 v.toNat, rfl, Nat.toDigits_ne_nil, fun c mem => ?_, Nat.ofDigitChars_ten_toDigits, fun head => ?_⟩
  · exact Nat.isDigit_of_mem_toDigits (by decide) le_rfl mem
  · rw [eq_zero_of_toDigits_head head, Nat.toDigits_zero]

end Sys2Proof.Machine
end

section
/-! SUPPORT. The loader's program text (30_encoding.md R62): the value of binary digits, and the statement about lines. -/

namespace Sys2Proof.Machine

/-! ### Binary digits -/

/-- The n low binary digits of a byte, leftmost first; all eight are `binaryDigits`. -/
def lowDigits (b : Byte) (n : Nat) : List Char := (List.range n).reverse.map (fun k => if b.getLsbD k then '1' else '0')

theorem lowDigits_eight (b : Byte) : lowDigits b 8 = binaryDigits b := rfl

theorem lowDigits_succ (b : Byte) (n : Nat) :
    lowDigits b (n + 1) = (if b.getLsbD n then '1' else '0') :: lowDigits b n := by
  simp only [lowDigits, List.range_succ, List.reverse_append, List.reverse_singleton, List.singleton_append, List.map_cons]

theorem binaryDigit_ite (p : Bool) : binaryDigit (if p then '1' else '0') = some p.toNat := by
  cases p <;> rfl

/-- A byte's bit as a digit of its number. -/
theorem toNat_getLsbD (b : Byte) (n : Nat) : (b.getLsbD n).toNat = b.toNat / 2 ^ n % 2 := by
  rw [← BitVec.testBit_toNat, Nat.toNat_testBit]

/-- The digits below bit n, read behind the value acc, are worth the byte modulo 2 ^ n. -/
theorem binaryValue_lowDigits (b : Byte) (n acc : Nat) :
    binaryValue acc (lowDigits b n) = some (acc * 2 ^ n + b.toNat % 2 ^ n) := by
  induction n generalizing acc with
  | zero => simp [lowDigits, binaryValue, Nat.mod_one]
  | succ n ih =>
    simp only [lowDigits_succ, binaryValue, binaryDigit_ite, ih, toNat_getLsbD, Nat.mod_pow_succ, Option.some.injEq]
    ring

theorem mem_binaryDigits {b : Byte} {c : Char} (h : c ∈ binaryDigits b) : c = '0' ∨ c = '1' := by
  obtain ⟨k, -, rfl⟩ := List.mem_map.1 h
  cases b.getLsbD k
  · exact .inl rfl
  · exact .inr rfl

theorem binaryLiteral_binaryDigits (b : Byte) (rest : List Char) : binaryLiteral (binaryDigits b ++ rest) = some b := by
  have eight : (binaryDigits b).length = 8 := rfl
  have long : ¬(binaryDigits b ++ rest).length < 8 := by rw [List.length_append]; omega
  rw [binaryLiteral, if_neg long, List.take_left' eight, ← lowDigits_eight, binaryValue_lowDigits, Option.map_some,
    Nat.zero_mul, Nat.zero_add, Nat.mod_eq_of_lt b.isLt, BitVec.ofNat_toNat, BitVec.setWidth_eq]

theorem digits_of_binaryValue {cs : List Char} {acc n : Nat} (h : binaryValue acc cs = some n) :
    ∀ c ∈ cs, c = '0' ∨ c = '1' := by
  induction cs generalizing acc with
  | nil => exact fun c mem => nomatch mem
  | cons c cs ih =>
    simp only [binaryValue] at h
    split at h
    · next d digit =>
      have first : c = '0' ∨ c = '1' := by
        unfold binaryDigit at digit
        split at digit
        · exact .inl rfl
        · exact .inr rfl
        · cases digit
      exact List.forall_mem_cons.2 ⟨first, ih h⟩
    · cases h

/-- A literal is read off eight binary digits. -/
theorem digits_of_binaryLiteral {text : List Char} {b : Byte} (h : binaryLiteral text = some b) :
    8 ≤ text.length ∧ ∀ c ∈ text.take 8, c = '0' ∨ c = '1' := by
  unfold binaryLiteral at h
  split at h
  · cases h
  · next long =>
    obtain ⟨n, value, -⟩ := Option.map_eq_some_iff.1 h
    exact ⟨Nat.le_of_not_lt long, digits_of_binaryValue value⟩

/-! ### Lines -/

theorem ne_hash_of_digit {c : Char} (h : c = '0' ∨ c = '1') : c ≠ '#' := by
  rcases h with rfl | rfl <;> decide

/-- Binary digits are no comment. -/
theorem preComment_append {cs : List Char} (h : ∀ c ∈ cs, c = '0' ∨ c = '1') (rest : List Char) :
    preComment (cs ++ rest) = cs ++ preComment rest :=
  List.takeWhile_append_of_pos fun c mem => decide_eq_true (ne_hash_of_digit (h c mem))

theorem parseLine_of_literal {line cs : List Char} {c : Char} {b : Byte} (text : preComment line = c :: cs)
    (digit : c = '0' ∨ c = '1') (literal : binaryLiteral (c :: cs) = some b) : parseLine line = .ok (some b) := by
  simp only [parseLine, text, if_pos digit, literal]

theorem parseLine_of_no_literal {line cs : List Char} {c : Char} (text : preComment line = c :: cs)
    (digit : c = '0' ∨ c = '1') (literal : binaryLiteral (c :: cs) = none) :
    parseLine line = .error (.parseError line) := by
  simp only [parseLine, text, if_pos digit, literal]

theorem parseLine_binaryDigits (b : Byte) (rest : List Char) : parseLine (binaryDigits b ++ rest) = .ok (some b) :=
  parseLine_of_literal (preComment_append (fun _ => mem_binaryDigits) rest) (mem_binaryDigits List.mem_cons_self)
    (binaryLiteral_binaryDigits b (preComment rest))

/-- A line whose text before the comment is a literal begins with eight binary digits. -/
theorem eight_le_of_binaryLiteral_preComment {line : List Char} {b : Byte} (h : binaryLiteral (preComment line) = some b) :
    8 ≤ (line.takeWhile (fun c => c = '0' || c = '1')).length := by
  obtain ⟨long, digits⟩ := digits_of_binaryLiteral h
  have split : line = (preComment line).take 8 ++ ((preComment line).drop 8 ++ line.dropWhile (fun c => c ≠ '#')) := by
    rw [← List.append_assoc, List.take_append_drop, preComment, List.takeWhile_append_dropWhile]
  rw [split, List.takeWhile_append_of_pos (fun c mem => by simpa using digits c mem), List.length_append, List.length_take]
  omega

theorem parseLine_of_few_digits {line : List Char} (head : line.head? = some '0' ∨ line.head? = some '1')
    (few : (line.takeWhile (fun c => c = '0' || c = '1')).length < 8) : parseLine line = .error (.parseError line) := by
  cases line with
  | nil => simp at head
  | cons c cs =>
    have digit : c = '0' ∨ c = '1' := by simpa using head
    have text : preComment (c :: cs) = c :: preComment cs :=
      preComment_append (cs := [c]) (List.forall_mem_singleton.2 digit) cs
    refine parseLine_of_no_literal text digit (Option.eq_none_iff_forall_ne_some.2 fun b literal => ?_)
    exact Nat.not_le_of_lt few (eight_le_of_binaryLiteral_preComment (text ▸ literal))

theorem parseText_cons {line : List Char} {lines : List (List Char)} {o : Option Byte} {bs : List Byte}
    (first : parseLine line = .ok o) (others : parseText lines = .ok bs) :
    parseText (line :: lines) = .ok (o.toList ++ bs) := by
  simp only [parseText, first, others]; rfl

/-- Settles O15: the three kinds of lines from `parseLine_binaryDigits`, the equation of `parseLine` without text before the
comment, and `parseLine_of_few_digits`; a text is its lines in order by `parseText_cons`. -/
theorem programTextGivesOneByteALine : Obligations.ProgramTextGivesOneByteALine := by
  unfold Obligations.ProgramTextGivesOneByteALine
  refine ⟨parseLine_binaryDigits, fun _ => ⟨rfl, rfl⟩, fun _ => parseLine_of_few_digits, rfl, fun line lines bs others => ?_⟩
  exact ⟨fun blank => parseText_cons blank others, fun b byte => parseText_cons byte others⟩

end Sys2Proof.Machine
end

section
/-! SUPPORT. The stack: PUSH, POP, CALL and RET (43_stack.md, 44_control_transfer.md sections 2 and 3), the bytes that the
stack holds, and the statements about pushes and the pops that follow them. -/

namespace Sys2Proof.Machine

variable {s : State}

theorem toNat_sub_one (v : Byte) : (v - 1#8).toNat = (v.toNat + 255) % 256 := by
  rw [BitVec.toNat_sub, Nat.add_comm]; rfl

theorem decSp_stackAddr (s : State) : s.decSp.stackAddr = (s.reg 7 - 1#8).toNat := congrArg BitVec.toNat (decSp_reg_sp s)

theorem decSp_reg (s : State) (r : Fin 8) : s.decSp.reg r = if r = 7 then s.reg 7 - 1#8 else s.reg r := setReg_reg ..

/-! ### A byte pushed -/

/-- s with SP decremented and a byte stored in the new top slot: what PUSH and CALL have in common. -/
def State.pushed (s : State) (v : Byte) : State := s.decSp.setMem (Memory.write s.mem s.decSp.stackAddr v)

theorem exec_push (r : Fin 8) (s : State) :
    exec (.push (regByte r)) s = .next ((s.pushed (s.decSp.reg r)).advance 2) := exec_of_completes (.push r)

theorem exec_call (r : Fin 8) (s : State) :
    exec (.call (regByte r)) s = .next ((s.pushed (returnAddress s.pc)).jump (s.decSp.reg r)) := exec_of_completes (.call r)

theorem pushed_reg_sp (s : State) (v : Byte) : (s.pushed v).reg 7 = s.reg 7 - 1#8 := decSp_reg_sp s

theorem pushed_reg_of_ne {r : Fin 8} (h : r ≠ 7) (v : Byte) : (s.pushed v).reg r = s.reg r := decSp_reg_of_ne s r h

theorem pushed_toNat_sp (s : State) (v : Byte) : ((s.pushed v).reg 7).toNat = ((s.reg 7).toNat + 255) % 256 := by
  rw [pushed_reg_sp, toNat_sub_one]

/-- The pushed byte is on top of the stack. -/
theorem read_pushed_top (wf : Memory.wf s.mem = true) (v : Byte) :
    Memory.read (s.pushed v).mem ((s.pushed v).reg 7).toNat = v := by
  rw [pushed_reg_sp, ← decSp_stackAddr]
  exact Memory.read_write_self wf _ v

theorem read_pushed_of_ne {a : Nat} (h : a ≠ s.decSp.stackAddr) (v : Byte) :
    Memory.read (s.pushed v).mem a = Memory.read s.mem a := Memory.read_write_of_ne s.mem v h

theorem sameMemoryExcept_pushed (s : State) (v : Byte) : SameMemoryExcept s.decSp.stackAddr s (s.pushed v) :=
  fun _ other => read_pushed_of_ne other v

theorem wf_pushed (wf : Memory.wf s.mem = true) (v : Byte) : Memory.wf (s.pushed v).mem = true :=
  Memory.wf_write wf (stackAddr_lt _) v

theorem sameRegsExcept_pushed (s : State) (v : Byte) : SameRegsExcept [7] s (s.pushed v) :=
  fun _ other => pushed_reg_of_ne (mt List.mem_singleton.2 other) v

/-- Settles O43, from `exec_push` and the laws of `pushed`; the register is read after SP is decremented, so that PUSH R7
stores the new SP. -/
theorem pushStoresAtTheDecrementedSp : Obligations.PushStoresAtTheDecrementedSp := by
  unfold Obligations.PushStoresAtTheDecrementedSp
  intro r s wf
  have stored := (read_pushed_top wf (s.decSp.reg r)).trans (decSp_reg s r)
  rw [← pushed_reg_sp s (s.decSp.reg r)] at stored
  exact ⟨_, exec_push r s, pushed_toNat_sp s (s.decSp.reg r), stored, sameRegsExcept_pushed s (s.decSp.reg r),
    sameMemoryExcept_pushed s _, rfl, rfl, rfl, rfl, rfl⟩

theorem toNat_returnAddress {pc : PcWord} (h : pc.toNat ≤ 253) : (returnAddress pc).toNat = pc.toNat + 2 := by
  rw [returnAddress, BitVec.toNat_ofNat]
  omega

/-- Settles O47, from `exec_call` and the laws of `pushed`; the target is read after the push, so that CALL R7 jumps to the
new SP. -/
theorem callPushesTheReturnAddressAndJumps : Obligations.CallPushesTheReturnAddressAndJumps := by
  unfold Obligations.CallPushesTheReturnAddressAndJumps
  intro r s wf
  have stored := read_pushed_top wf (returnAddress s.pc)
  have target := decSp_reg s r
  rw [← pushed_reg_sp s (returnAddress s.pc)] at target
  refine ⟨_, exec_call r s, pushed_toNat_sp s (returnAddress s.pc), fun le => ?_, ?_,
    sameRegsExcept_pushed s (returnAddress s.pc), sameMemoryExcept_pushed s _, rfl, rfl, rfl, rfl⟩
  · exact (congrArg BitVec.toNat stored).trans (toNat_returnAddress le)
  · exact (zext9_toNat _).trans (congrArg BitVec.toNat target)

/-- Settles O56: the fetch at pc + 2 reads the top of the stack, which is the pushed byte by `read_pushed_top`. -/
theorem nextFetchSeesThePushedByte : Obligations.NextFetchSeesThePushedByte := by
  unfold Obligations.NextFetchSeesThePushedByte
  intro r s notSp wf slot le
  have pc : ((s.pushed (s.decSp.reg r)).advance 2).pc.toNat = s.pc.toNat + 2 :=
    toNat_add_ofNat (le.trans (by decide)) (by decide)
  refine ⟨_, _, exec_push r s, fetch_of_le (by omega), ?_⟩
  simp only [pc, slot, decSp_stackAddr, ← pushed_reg_sp s (s.decSp.reg r)]
  exact (read_pushed_top wf _).trans (decSp_reg_of_ne s r notSp)

/-! ### A byte popped -/

/-- The state after POP r: the top of the stack in register r, then SP incremented. -/
def State.popped (s : State) (r : Fin 8) : State := (s.setReg r (Memory.read s.mem s.stackAddr)).incSp.advance 2

theorem exec_pop (r : Fin 8) (s : State) : exec (.pop (regByte r)) s = .next (s.popped r) := exec_of_completes (.pop r)

theorem popped_reg_self {r : Fin 8} (h : r ≠ 7) : (s.popped r).reg r = Memory.read s.mem (s.reg 7).toNat :=
  (incSp_reg_of_ne _ r h).trans (setReg_reg_self ..)

theorem popped_reg_sp {r : Fin 8} (h : r ≠ 7) : (s.popped r).reg 7 = s.reg 7 + 1#8 :=
  (incSp_reg_sp _).trans (congrArg (· + 1#8) (setReg_reg_of_ne _ _ _ _ h.symm))

theorem popped_sp_reg_sp (s : State) : (s.popped 7).reg 7 = Memory.read s.mem (s.reg 7).toNat + 1#8 :=
  (incSp_reg_sp _).trans (congrArg (· + 1#8) (setReg_reg_self ..))

theorem popped_reg_of_ne {r d : Fin 8} (other : r ≠ d) (notSp : r ≠ 7) : (s.popped d).reg r = s.reg r :=
  (incSp_reg_of_ne _ r notSp).trans (setReg_reg_of_ne _ _ _ _ other)

theorem popped_mem (s : State) (r : Fin 8) : (s.popped r).mem = s.mem := rfl

/-- Settles O44, from `exec_pop` and the laws of `popped`. -/
theorem popLoadsFromSpThenIncrements : Obligations.PopLoadsFromSpThenIncrements := by
  unfold Obligations.PopLoadsFromSpThenIncrements
  intro r s
  refine ⟨_, exec_pop r s, fun ne => ⟨popped_reg_self ne, ?_⟩, ?_, fun j other => ?_, fun _ => rfl, rfl, rfl, rfl, rfl, rfl⟩
  · rw [popped_reg_sp ne]; exact BitVec.toNat_add _ _
  · rintro rfl
    rw [popped_sp_reg_sp]; exact BitVec.toNat_add _ _
  · simp only [List.mem_cons, List.not_mem_nil, or_false, not_or] at other
    exact popped_reg_of_ne other.1 other.2

/-- Settles O48, from `Completes.ret`. -/
theorem retPopsThePc : Obligations.RetPopsThePc := by
  unfold Obligations.RetPopsThePc
  intro s
  refine ⟨_, exec_of_completes .ret, zext9_toNat _, ?_, fun r other => ?_, fun _ => rfl, rfl, rfl, rfl, rfl⟩
  · exact (congrArg BitVec.toNat (incSp_reg_sp _)).trans (BitVec.toNat_add _ _)
  · exact incSp_reg_of_ne _ r (mt List.mem_singleton.2 other)

/-- Settles O49: RET reads the return address, which is where the CALL stored it by `read_pushed_top`, and increments the SP
that the CALL decremented. -/
theorem retReturnsBehindTheCall : Obligations.RetReturnsBehindTheCall := by
  unfold Obligations.RetReturnsBehindTheCall
  intro r s u wf le
  refine ⟨_, exec_call r s, fun spKept cellKept => ⟨_, exec_of_completes .ret, ?_, ?_⟩⟩
  · have top : Memory.read u.mem u.stackAddr = returnAddress s.pc := by
      rw [State.stackAddr, sp_eq_reg, show u.reg spIndex = _ from spKept, cellKept]
      exact read_pushed_top wf (returnAddress s.pc)
    exact (zext9_toNat _).trans ((congrArg BitVec.toNat top).trans (toNat_returnAddress le))
  · have sp : u.reg 7 = s.reg 7 - 1#8 := spKept.trans (pushed_reg_sp s (returnAddress s.pc))
    refine (incSp_reg_sp _).trans ?_
    rw [jump_reg, show u.reg spIndex = _ from sp, BitVec.sub_add_cancel]

/-! ### Sequences of pushes and pops -/

theorem execAll_cons {t : State} {i : Instr} (h : exec i s = .next t) (is : List Instr) :
    execAll (i :: is) s = execAll is t := by
  simp only [execAll, h]

theorem execAll_append {t : State} {is : List Instr} (js : List Instr) (h : execAll is s = some t) :
    execAll (is ++ js) s = execAll js t := by
  induction is generalizing s with
  | nil => cases h; rfl
  | cons i is ih =>
    obtain ⟨u, next⟩ := exec_answers i s
    rw [execAll_cons next] at h
    rw [List.cons_append, execAll_cons next, ih h]

/-- Settles O45, from the laws of `pushed` and of `popped`. -/
theorem pushThenPopBalances : Obligations.PushThenPopBalances := by
  unfold Obligations.PushThenPopBalances
  intro r d s rNotSp dNotSp wf
  have sp : (((s.pushed (s.decSp.reg r)).advance 2).popped d).reg 7 = s.reg 7 := by
    rw [popped_reg_sp dNotSp, advance_reg, pushed_reg_sp, BitVec.sub_add_cancel]
  refine ⟨_, (execAll_cons (exec_push r s) _).trans (execAll_cons (exec_pop d _) _), ?_, sp, fun j other => ?_,
    sameMemoryExcept_pushed s _⟩
  · exact (popped_reg_self dNotSp).trans ((read_pushed_top wf _).trans (decSp_reg_of_ne s r rNotSp))
  · by_cases isSp : j = 7
    · rw [isSp, sp]
    · rw [popped_reg_of_ne (mt List.mem_singleton.2 other) isSp, advance_reg, pushed_reg_of_ne isSp]

/-- The stack holds these bytes, from its top, which SP points at, upward modulo 256. -/
def StackHolds (s : State) (vs : List Byte) : Prop :=
  ∀ k, (lt : k < vs.length) → Memory.read s.mem (s.reg 7 + BitVec.ofNat 8 k).toNat = vs[k]

theorem stackHolds_nil (s : State) : StackHolds s [] := fun _ lt => nomatch lt

/-- The k-th slot above SP is not the one below it, as long as the stack has fewer than 256 bytes. -/
theorem slot_ne_slot_below (sp : Byte) {k : Nat} (lt : k < 255) : (sp + BitVec.ofNat 8 k).toNat ≠ (sp - 1#8).toNat := by
  have := sp.isLt
  rw [BitVec.toNat_add, BitVec.toNat_ofNat, toNat_sub_one]
  omega

/-- A push puts its byte on top and keeps the others: one slot up, as seen from the new SP. -/
theorem StackHolds.push {vs : List Byte} (h : StackHolds s vs) (wf : Memory.wf s.mem = true) (room : vs.length < 256)
    (v : Byte) : StackHolds ((s.pushed v).advance 2) (v :: vs) := by
  intro k lt
  rw [advance_mem, advance_reg]
  cases k with
  | zero => rw [BitVec.add_zero, read_pushed_top wf]; rfl
  | succ k =>
    have k_lt : k < vs.length := Nat.lt_of_succ_lt_succ lt
    have slot : (s.pushed v).reg 7 + BitVec.ofNat 8 (k + 1) = s.reg 7 + BitVec.ofNat 8 k := by
      rw [pushed_reg_sp, BitVec.ofNat_add, BitVec.add_comm (BitVec.ofNat 8 k), ← BitVec.add_assoc, BitVec.sub_add_cancel]
    have other : (s.reg 7 + BitVec.ofNat 8 k).toNat ≠ s.decSp.stackAddr :=
      decSp_stackAddr s ▸ slot_ne_slot_below (s.reg 7) (by omega)
    rw [slot, read_pushed_of_ne other, h k k_lt, List.getElem_cons_succ]

theorem StackHolds.top {v : Byte} {vs : List Byte} (h : StackHolds s (v :: vs)) :
    Memory.read s.mem (s.reg 7).toNat = v := by
  simpa using h 0 (Nat.succ_pos _)

theorem StackHolds.pop {v : Byte} {vs : List Byte} (h : StackHolds s (v :: vs)) {d : Fin 8} (notSp : d ≠ 7) :
    StackHolds (s.popped d) vs := by
  intro k lt
  have slot : s.reg 7 + 1#8 + BitVec.ofNat 8 k = s.reg 7 + BitVec.ofNat 8 (k + 1) := by
    rw [BitVec.ofNat_add, BitVec.add_comm (BitVec.ofNat 8 k), ← BitVec.add_assoc]
  rw [popped_mem, popped_reg_sp notSp, slot]
  exact h (k + 1) (Nat.succ_lt_succ lt)

/-- Pushes leave the registers' values on the stack, the last one pushed on top, and SP lower by their number. -/
theorem execAll_pushes {rs : List (Fin 8)} {vs : List Byte} (notSp : 7 ∉ rs) (wf : Memory.wf s.mem = true)
    (holds : StackHolds s vs) (room : vs.length + rs.length ≤ 256) :
    ∃ t, execAll (rs.map fun r => .push (regByte r)) s = some t ∧ StackHolds t ((rs.map s.reg).reverse ++ vs) ∧
      t.reg 7 + BitVec.ofNat 8 rs.length = s.reg 7 := by
  induction rs generalizing s vs with
  | nil => exact ⟨s, rfl, holds, BitVec.add_zero _⟩
  | cons r rs ih =>
    obtain ⟨notSpHere, notSpLater⟩ := not_or.1 (mt List.mem_cons.2 notSp)
    rw [List.length_cons] at room
    obtain ⟨t, run, holds', sp⟩ := ih (s := (s.pushed (s.decSp.reg r)).advance 2) notSpLater (wf_pushed wf _)
      (holds.push wf (by omega) (s.decSp.reg r)) (by rw [List.length_cons]; omega)
    refine ⟨t, (execAll_cons (exec_push r s) _).trans run, ?_, ?_⟩
    · have sameValues : rs.map ((s.pushed (s.decSp.reg r)).advance 2).reg = rs.map s.reg :=
        List.map_congr_left fun r' mem => pushed_reg_of_ne (ne_of_mem_of_not_mem mem notSpLater) (s.decSp.reg r)
      rw [sameValues, decSp_reg_of_ne s r (Ne.symm notSpHere)] at holds'
      rwa [List.map_cons, List.reverse_cons, List.append_assoc, List.singleton_append]
    · rw [List.length_cons, BitVec.ofNat_add, ← BitVec.add_assoc, sp, advance_reg, pushed_reg_sp, BitVec.sub_add_cancel]

/-- Pops hand the stack's bytes out from the top, each to its register unless a later pop overwrites it, and leave SP higher
by their number. -/
theorem execAll_pops {ds : List (Fin 8)} {vs : List Byte} (notSp : 7 ∉ ds) (holds : StackHolds s vs)
    (len : ds.length = vs.length) :
    ∃ t, execAll (ds.map fun d => .pop (regByte d)) s = some t ∧ t.reg 7 = s.reg 7 + BitVec.ofNat 8 ds.length ∧
      (∀ r, r ≠ 7 → r ∉ ds → t.reg r = s.reg r) ∧
      ∀ k (lt : k < ds.length), ds[k] ∉ ds.drop (k + 1) → t.reg ds[k] = vs[k] := by
  induction ds generalizing s vs with
  | nil => exact ⟨s, rfl, (BitVec.add_zero _).symm, fun _ _ _ => rfl, fun _ lt => nomatch lt⟩
  | cons d ds ih =>
    obtain ⟨notSpHere, notSpLater⟩ := not_or.1 (mt List.mem_cons.2 notSp)
    cases vs with
    | nil => cases len
    | cons v vs =>
      have dNotSp : d ≠ 7 := Ne.symm notSpHere
      obtain ⟨t, run, sp, others, popped⟩ := ih notSpLater (holds.pop dNotSp) (Nat.succ.inj len)
      refine ⟨t, (execAll_cons (exec_pop d s) _).trans run, ?_, fun r rNotSp notIn => ?_, fun k lt last => ?_⟩
      · rw [sp, popped_reg_sp dNotSp, List.length_cons, BitVec.ofNat_add, BitVec.add_comm (BitVec.ofNat 8 ds.length),
          BitVec.add_assoc]
      · obtain ⟨ne, notLater⟩ := not_or.1 (mt List.mem_cons.2 notIn)
        rw [others r rNotSp notLater, popped_reg_of_ne ne rNotSp]
      · cases k with
        | zero => exact (others d dNotSp last).trans ((popped_reg_self dNotSp).trans holds.top)
        | succ k => exact popped k (Nat.lt_of_succ_lt_succ lt) last

/-- Settles O46: after the pushes the stack holds the registers' values in reverse order by `execAll_pushes`, and the pops
hand them out in this order by `execAll_pops`. -/
theorem pushesThenPopsReturnInReverseOrder : Obligations.PushesThenPopsReturnInReverseOrder := by
  unfold Obligations.PushesThenPopsReturnInReverseOrder
  intro rs ds s len room rsNotSp dsNotSp wf
  obtain ⟨t, pushes, holds, spDown⟩ := execAll_pushes rsNotSp wf (stackHolds_nil s) (by simpa using room)
  rw [List.append_nil] at holds
  obtain ⟨u, pops, spUp, -, values⟩ := execAll_pops dsNotSp holds (by simp [len])
  refine ⟨u, (execAll_append _ pushes).trans pops, by rw [spUp, ← len, spDown], fun k lt last => ?_⟩
  have k_lt : k < rs.reverse.length := by rw [List.length_reverse]; omega
  rw [List.getD_eq_getElem _ _ lt] at last ⊢
  rw [List.getD_eq_getElem _ _ k_lt, values k lt last]
  simp only [← List.map_reverse, List.getElem_map]

end Sys2Proof.Machine
end
